-- ==== Sys2Proof/Word.lean ====
section
/-!
DEFINITION. The fixed widths of the machine (00_scope.md R7): instruction words of `IW` = 16 bits,
operands of `OPD_W` = 12, opcodes of `OPC_W` = 4, the program counter of `PCW` = 12, `cycle_count` of
`CNTW` = 64 and the 2-bit fault cause register. The width `XLEN` of the accumulator and of a cell is a
parameter, so a cell is `BitVec xlen` where `xlen` is the machine's own.
-/

namespace Sys2Proof

/-- One instruction word (30_encoding.md R73). -/
abbrev InstrWord := BitVec 16

/-- The operand field, unsigned (R73, R74). -/
abbrev Operand := BitVec 12

/-- The opcode field (R73). -/
abbrev Opcode := BitVec 4

/-- A program-counter value (10_state.md R25). -/
abbrev PcWord := BitVec 12

/-- A `cycle_count` value (10_state.md R32). -/
abbrev Count := BitVec 64

/-- A value of the fault cause register (10_state.md R33). -/
abbrev FaultCode := BitVec 2

/-- A byte of a serialised program image (20_memory.md R53); the machine itself has no bytes. -/
abbrev Byte := BitVec 8

end Sys2Proof
end

