-- ==== Sys2Proof/Syntax.lean ====
section
/-!
DEFINITION. The instruction set: exactly seven kinds (00_scope.md R2), each with an operand
(30_encoding.md R70).
-/

namespace Sys2Proof

/-- The seven instruction kinds (00_scope.md R2). -/
inductive Kind where
  | load | store | add | sub | jump | nop | halt
deriving DecidableEq, Repr

/-- An instruction: its kind and its 12-bit operand (30_encoding.md R70, R72). "Every instruction has
both fields, whatever its kind"; the operand of NOP and HALT is ignored but present (R78), and a step
event reports it as encoded. -/
inductive Instr where
  /-- LOAD addr (41_load_store.md R110). -/
  | load (addr : Operand)
  /-- STORE addr (41_load_store.md R111). -/
  | store (addr : Operand)
  /-- ADD addr (42_arithmetic.md R120). -/
  | add (addr : Operand)
  /-- SUB addr (42_arithmetic.md R121). -/
  | sub (addr : Operand)
  /-- JUMP target (43_control.md R130). -/
  | jump (target : Operand)
  /-- NOP, operand unused (43_control.md R132). -/
  | nop (unused : Operand)
  /-- HALT, operand unused (43_control.md R133). -/
  | halt (unused : Operand)
deriving DecidableEq, Repr

end Sys2Proof
end

