-- ==== Sys2Proof/Decode.lean ====
section
/-!
DEFINITION. Decoding and encoding, from 30_encoding.md R73 to R80. One format, `I16`: the opcode in
bits 15:12, the operand in bits 11:0. Decoding looks at the opcode alone (R76) and is total on words;
opcodes 7 to 15 are refused by name (R77).
-/

namespace Sys2Proof

/-- Why a word or a byte sequence is no instruction. -/
inductive DecodeError where
  /-- The opcode field is 7 to 15 (30_encoding.md R77); executing the word raises UnknownOpcode. -/
  | unknownOpcode (opcode : Opcode)
  /-- A serialised image ends inside a word; raised by `decodeBytes` only, never by the machine. -/
  | truncated (bytes : Nat)
deriving DecidableEq, Repr

/-- The opcode field, `word[15:12]` (R73). -/
def opcodeOf (w : InstrWord) : Opcode := w.extractLsb' 12 4

/-- The operand field, `word[11:0]` (R73). -/
def operandOf (w : InstrWord) : Operand := w.extractLsb' 0 12

/-- The kind of an instruction (R70). -/
def Instr.kind : Instr → Kind
  | .load _ => .load
  | .store _ => .store
  | .add _ => .add
  | .sub _ => .sub
  | .jump _ => .jump
  | .nop _ => .nop
  | .halt _ => .halt

/-- The operand of an instruction, as encoded (R70, R78). -/
def Instr.operand : Instr → Operand
  | .load a => a
  | .store a => a
  | .add a => a
  | .sub a => a
  | .jump t => t
  | .nop x => x
  | .halt x => x

/-- The opcode numbers (R75). -/
def Kind.opcode : Kind → Opcode
  | .load => 0
  | .store => 1
  | .add => 2
  | .sub => 3
  | .jump => 4
  | .nop => 5
  | .halt => 6

/-- The kind an opcode selects, none for the illegal opcodes 7 to 15 (R75, R77). -/
def kindOf (opcode : Opcode) : Option Kind :=
  match opcode.toNat with
  | 0 => some .load
  | 1 => some .store
  | 2 => some .add
  | 3 => some .sub
  | 4 => some .jump
  | 5 => some .nop
  | 6 => some .halt
  | _ => none

/-- The instruction of a kind with an operand (R70). -/
def Kind.withOperand : Kind → Operand → Instr
  | .load, a => .load a
  | .store, a => .store a
  | .add, a => .add a
  | .sub, a => .sub a
  | .jump, t => .jump t
  | .nop, x => .nop x
  | .halt, x => .halt x

/-- Decode one word (R76). -/
def decodeWord (w : InstrWord) : Except DecodeError Instr :=
  match kindOf (opcodeOf w) with
  | some k => .ok (k.withOperand (operandOf w))
  | none => .error (.unknownOpcode (opcodeOf w))

/-- `word = {opcode[3:0], operand[11:0]}` (R73). -/
def encode (i : Instr) : InstrWord := (i.kind.opcode ++ i.operand).cast rfl

/-- A word from its serialised bytes, low byte first (20_memory.md R53). -/
def wordOfBytes (low high : Byte) : InstrWord := (high ++ low).cast rfl

/-- The serialised bytes of a word, low byte first (20_memory.md R53). -/
def bytesOfWord (w : InstrWord) : List Byte := [w.extractLsb' 0 8, w.extractLsb' 8 8]

/-- Decode the first instruction of a serialised program image and return the bytes after it. Total on
any bytes. Only a host tool has bytes (R53); the machine fetches words. -/
def decodeBytes : List Byte → Except DecodeError (Instr × List Byte)
  | low :: high :: rest => (decodeWord (wordOfBytes low high)).map (fun i => (i, rest))
  | short => .error (.truncated short.length)

/-- What the decoder reads from the low `nbits` bits of `w`, the bits above them zero: the form in
which the opcode table's rows are asked about. The word is laid out as its two bytes, low byte first,
and decoded from them. -/
def decodeTableWord (nbits w : Nat) : Option Instr :=
  match decodeBytes (bytesOfWord (BitVec.ofNat 16 (w % 2 ^ nbits))) with
  | .ok (i, _) => some i
  | .error _ => none

/-- One row of the opcode table: a word belongs to it when `word & mask = bits` (R75: "For every
defined opcode: `match = opcode * 4096`, `mask = 0xF000`"). -/
structure OpcodeRow where
  mnemonic : String
  kind : Kind
  bits : InstrWord
  mask : InstrWord
deriving DecidableEq, Repr

/-- The mnemonics (R75). -/
def Kind.mnemonic : Kind → String
  | .load => "LOAD"
  | .store => "STORE"
  | .add => "ADD"
  | .sub => "SUB"
  | .jump => "JUMP"
  | .nop => "NOP"
  | .halt => "HALT"

/-- The opcode table, row by row as opcode_table.json has it. -/
def opcodeTable : List OpcodeRow :=
  [⟨"LOAD", .load, 0x0000, 0xF000⟩, ⟨"STORE", .store, 0x1000, 0xF000⟩, ⟨"ADD", .add, 0x2000, 0xF000⟩,
   ⟨"SUB", .sub, 0x3000, 0xF000⟩, ⟨"JUMP", .jump, 0x4000, 0xF000⟩, ⟨"NOP", .nop, 0x5000, 0xF000⟩,
   ⟨"HALT", .halt, 0x6000, 0xF000⟩]

/-- A word belongs to a row. -/
def OpcodeRow.covers (r : OpcodeRow) (w : InstrWord) : Bool := w &&& r.mask == r.bits

end Sys2Proof
end

