-- ==== Sys2Proof/Config.lean ====
section
/-!
DEFINITION. What an instance of the hardware fixes (00_scope.md R7) and the free values: values the
spec leaves unconstrained. A free value has no body, so nothing can be proved of it.
-/

namespace Sys2Proof

/-- The parameters fixed at construction (00_scope.md R7, R9): `XLEN`, `MEM_SIZE` and `PROGRAM`.
`PROG_LEN` is `program.length`. -/
structure Params where
  xlen : Nat
  memSize : Nat
  program : List InstrWord
deriving DecidableEq, Repr

/-- The default of `XLEN` (R7). -/
abbrev Config.defaultXlen : Nat := 32

/-- The default of `MEM_SIZE` (R7). -/
abbrev Config.defaultMemSize : Nat := 16

/-- The largest `MEM_SIZE` (R7): what a 12-bit address reaches. -/
abbrev Config.maxMemSize : Nat := 4096

/-- The largest `PROG_LEN` (R7, 10_state.md R25): so that `pc = PROG_LEN` is representable. -/
abbrev Config.maxProgLen : Nat := 4095

/-- The largest operand (30_encoding.md R73). -/
abbrev Config.maxOperand : Nat := 4095

/-- FREE VALUE, log 8: the `elapsed_time` of a `run` (10_state.md R34: "any non-negative value, chosen
freshly for each `run`, read by no rule"). The argument counts the draws. -/
opaque Config.elapsedTime : Nat → Nat

/-- FREE VALUE, log 13: `trace_value` where the kind defines none (45_interfaces_and_trace.md R162:
"Fields that the kind does not define carry any value"). The arguments of this and of the port values
below are the cycle count and the number of events emitted so far. -/
opaque Config.portTraceValue (w : Nat) : Nat → Nat → BitVec w

/-- FREE VALUE, log 13: `trace_acc` where the kind defines none (R162). -/
opaque Config.portTraceAcc (w : Nat) : Nat → Nat → BitVec w

/-- FREE VALUE, log 13: `trace_taken` where the kind defines none (R162). -/
opaque Config.portTraceTaken : Nat → Nat → Bool

/-- FREE VALUE, log 13: `trace_kind` while `trace_valid` is 0 (R154 gives the fields with the pulse). -/
opaque Config.portTraceKind : Nat → Nat → BitVec 3

/-- FREE VALUE, log 13: `trace_operand` while `trace_valid` is 0. -/
opaque Config.portTraceOperand : Nat → Nat → Operand

/-- FREE VALUE, log 13: `dmem_addr` where no LOAD, STORE, ADD or SUB executes (R154). -/
opaque Config.portDmemAddr : Nat → Nat → Operand

/-- FREE VALUE, log 13: `dmem_wdata` while `dmem_we` is 0 (R154: "valid with `dmem_we`"). -/
opaque Config.portDmemWdata (w : Nat) : Nat → Nat → BitVec w

/-- FREE VALUE, log 13: `dmem_rdata` while `dmem_re` is 0 (R154: "valid with `dmem_re`"). -/
opaque Config.portDmemRdata (w : Nat) : Nat → Nat → BitVec w

end Sys2Proof
end

