-- ==== Sys2Proof/Machine/Trace.lean ====
section
/-!
DEFINITION. The events the engine produces, by content (45_interfaces_and_trace.md R157 to R160);
their presentation is outside the core (R157). Values are `XLEN` bits, `w` here.
-/

namespace Sys2Proof.Machine

/-- The detail of a step event, which depends on the kind (R158). -/
inductive StepDetail (w : Nat) where
  /-- LOAD: "loaded value, address". -/
  | loaded (value : BitVec w) (address : Nat)
  /-- STORE: "stored value, address". -/
  | stored (value : BitVec w) (address : Nat)
  /-- ADD and SUB: "operand value, new accumulator". -/
  | arithmetic (operandValue newAccumulator : BitVec w)
  /-- JUMP: "taken". -/
  | jump (taken : Bool)
  /-- NOP and HALT: no detail fields. -/
  | plain
deriving DecidableEq, Repr

/-- The events of `run` and `reset`: "There are three event kinds ...: step, summary, reset notice"
(R157). -/
inductive TraceEvent (w : Nat) where
  /-- One per executed instruction, with the operand "exactly as encoded" (R158). -/
  | step (kind : Kind) (operand : Operand) (detail : StepDetail w)
  /-- One per `run` that ends without a fault, fields in the source's order (R159): `cycle_count`,
  `elapsed_time`, final `acc`, final `pc`, every cell in address order. -/
  | summary (cycleCount : Count) (elapsedTime : Nat) (acc : BitVec w) (pc : PcWord)
      (cells : List (BitVec w))
  /-- One per `reset`, without fields (R160). -/
  | resetNotice
deriving DecidableEq, Repr

end Sys2Proof.Machine
end

