-- ==== Sys2Proof/Machine/State.lean ====
section
/-!
DEFINITION. The state of the machine (10_state.md R20 to R40), the reasons a step stops, and the state
after reset.
-/

namespace Sys2Proof.Machine

/-- Data memory (R35, 20_memory.md R51, R52): pairs of a cell index and an `XLEN`-bit cell. Canonical
form (`Memory.wf`): addresses strictly rising and no entry equal to 0, which is what an unlisted cell
holds (R38: every memory cell is 0 at reset); log 4. -/
abbrev Memory (w : Nat) := List (Nat × BitVec w)

/-- The two fatal conditions of the source (60_exceptions.md R170). -/
inductive FaultCause where
  /-- R171: the opcode field is 7 to 15. -/
  | unknownOpcode
  /-- R172: a LOAD, STORE, ADD or SUB operand at or above `MEM_SIZE`. -/
  | addressOutOfRange
deriving DecidableEq, Repr

/-- The four conditions of the machine (10_state.md R40). -/
inductive Condition where
  /-- `fault = 0 and halted = 0 and pc < PROG_LEN`. -/
  | runnable
  /-- `fault = 0 and halted = 1`. -/
  | halted
  /-- `fault = 0 and halted = 0 and pc >= PROG_LEN`. -/
  | offEnd
  /-- `fault != 0`. -/
  | faulted
deriving DecidableEq, Repr

/-- How `step` reports a machine that is Faulted (60_exceptions.md R175: terminal until reset). The
cycle that raises is a next state, in which the `fault` register holds the cause (R174); the step after
it stops with the cause's name (R172: "surfaced to the caller of `run`"). Log 5. -/
inductive Fault where
  /-- `fault = 1`. Raised by `step` on a Faulted machine only. Safe: no next state is claimed. -/
  | unknownOpcode
  /-- `fault = 2`. Raised by `step` on a Faulted machine only. Safe: no next state is claimed. -/
  | addressOutOfRange
  /-- `fault = 3`, "never written by the engine" (10_state.md R33). Raised by `step` only in a state no
  run reaches. Safe: no next state is claimed. -/
  | reservedCause
deriving DecidableEq, Repr

/-- Why an instruction has no meaning. None is refused: every constructor of `Instr` has its meaning. -/
inductive Refusal where
  /-- Raised by no arm of `exec` as it stands; an arm without a meaning would answer it. Safe. -/
  | notModelled (mnemonic : String)
deriving DecidableEq, Repr

/-- The whole machine as plain data: the instance's parameters, the architectural state of R20, and
the outputs. -/
structure State where
  /-- `XLEN` (00_scope.md R7), fixed at construction. -/
  xlen : Nat
  /-- `MEM_SIZE` (R7), fixed at construction. -/
  memSize : Nat
  /-- `PROGRAM` (R7, R9), the read-only program store; `PROG_LEN` is its length. -/
  program : List InstrWord
  /-- The accumulator (10_state.md R21). -/
  acc : BitVec xlen
  /-- The program counter (R24). -/
  pc : PcWord
  /-- The halted flag (R28). -/
  halted : Bool
  /-- `cycle_count` (R31). -/
  cycleCount : Count
  /-- The fault cause register (R33). -/
  fault : FaultCode
  /-- Data memory (R35). -/
  mem : Memory xlen
  /-- `elapsed_time` (R34), read by no rule. -/
  elapsedTime : Nat
  /-- The model's own: how many times `elapsed_time` has been drawn (log 8). -/
  elapsedDraws : Nat
  /-- The events emitted so far, oldest first; an output history, read by no rule (R157). -/
  trace : List (TraceEvent xlen)
deriving DecidableEq, Repr

/-- The state after reset (R38, 70_reset_and_hazards.md R204) of the default instance (00_scope.md R7):
`XLEN` = 32, `MEM_SIZE` = 16, and no program loaded (log 3), so Off the end (R100) until a program is
constructed or placed. -/
def State.reset : State where
  xlen := 32
  memSize := 16
  program := []
  acc := 0#32
  pc := 0#12
  halted := false
  cycleCount := 0#64
  fault := 0#2
  mem := []
  elapsedTime := 0
  elapsedDraws := 0
  trace := []

end Sys2Proof.Machine
end

