-- ==== Sys2Proof/Machine/Ops.lean ====
section
/-!
DEFINITION. The named operations on memory and registers: the primitives of 00_scope.md R11, taking a
fault (60_exceptions.md R174), the step event and the common increment of the cycle
(40_execution_cycle.md R91 steps 1, 3c and 4), and the machine conditions (10_state.md R40).
-/

namespace Sys2Proof.Machine

/-! ## Memory -/

/-- The value of a cell: the listed one, else 0 (10_state.md R38). -/
def Memory.read {w : Nat} : Memory w → Nat → BitVec w
  | [], _ => 0#w
  | (b, v) :: m, a => if b = a then v else Memory.read m a

/-- The memory without the entries of cell `a`. -/
def Memory.clear {w : Nat} : Memory w → Nat → Memory w
  | [], _ => []
  | (b, v) :: m, a => if b = a then Memory.clear m a else (b, v) :: Memory.clear m a

/-- The memory with an entry put at its place in address order. -/
def Memory.insert {w : Nat} : Memory w → Nat → BitVec w → Memory w
  | [], a, v => [(a, v)]
  | (b, u) :: m, a, v => if a < b then (a, v) :: (b, u) :: m else (b, u) :: Memory.insert m a v

/-- Write one cell; writing 0, what an unlisted cell holds, removes the entry. -/
def Memory.write {w : Nat} (m : Memory w) (a : Nat) (v : BitVec w) : Memory w :=
  if v = 0#w then m.clear a else (m.clear a).insert a v

/-- The canonical form: addresses strictly rising, no entry equal to what an unlisted cell holds. -/
abbrev Memory.wf {w : Nat} (m : Memory w) : Prop :=
  m.Pairwise (fun x y => x.1 < y.1) ∧ ∀ c ∈ m, c.2 ≠ 0#w

/-- Every listed cell exists: its address is below `n` (20_memory.md R51). -/
abbrev Memory.below {w : Nat} (m : Memory w) (n : Nat) : Prop := ∀ c ∈ m, c.1 < n

/-- Cells `0` to `n - 1` in address order (45_interfaces_and_trace.md R159). -/
def Memory.dump {w : Nat} (m : Memory w) (n : Nat) : List (BitVec w) :=
  (List.range n).map (fun a => m.read a)

/-! ## Observing a state without its width

`State.xlen` is data, so two states' accumulators have one type only if their widths agree; these give
the values as numbers. -/

/-- `unsigned(acc)` (00_scope.md R10). -/
def State.accValue (s : State) : Nat := s.acc.toNat

/-- `signed(acc)` (10_state.md R22). -/
def State.accInt (s : State) : Int := s.acc.toInt

/-- `unsigned(mem[a])`. -/
def State.cellValue (s : State) (a : Nat) : Nat := (s.mem.read a).toNat

/-! ## The machine's condition -/

/-- The loop predicate (40_execution_cycle.md R90). -/
abbrev State.Runnable (s : State) : Prop :=
  s.fault = 0#2 ∧ s.halted = false ∧ s.pc.toNat < s.program.length

/-- Which of the four conditions holds (10_state.md R40). -/
def State.condition (s : State) : Condition :=
  if s.fault ≠ 0#2 then .faulted
  else if s.halted then .halted
  else if s.pc.toNat < s.program.length then .runnable
  else .offEnd

/-! ## Faults -/

/-- The cause codes (60_exceptions.md R170). -/
def FaultCause.code : FaultCause → FaultCode
  | .unknownOpcode => 1#2
  | .addressOutOfRange => 2#2

/-- Taking a fault (R174): `fault` receives the cause code, and nothing else is done; the step event
and the increment of `pc` are not reached. There is no handler, no vector and no saved register. -/
def raise (c : FaultCause) (s : State) : State := { s with fault := c.code }

/-- How a Faulted machine stops, by the contents of `fault` (10_state.md R33). -/
def faultOfCode (f : FaultCode) : Fault :=
  match f.toNat with
  | 1 => .unknownOpcode
  | 2 => .addressOutOfRange
  | _ => .reservedCause

/-! ## Memory access by an instruction -/

/-- `MemRead(addr, 1)` (00_scope.md R11, 20_memory.md R57). -/
def memRead (s : State) (a : Nat) : Except FaultCause (BitVec s.xlen) :=
  if a < s.memSize then .ok (s.mem.read a) else .error .addressOutOfRange

/-- `MemWrite(addr, 1, v)` (R11, R57). -/
def memWrite (s : State) (a : Nat) (v : BitVec s.xlen) : Except FaultCause State :=
  if a < s.memSize then .ok { s with mem := s.mem.write a v } else .error .addressOutOfRange

/-! ## The common steps of the cycle -/

/-- Step 1: `cycle_count <- (cycle_count + 1) mod 2^64` (40_execution_cycle.md R91, R92). -/
def countCycle (s : State) : State := { s with cycleCount := s.cycleCount + 1#64 }

/-- Step 2: the word at `pc` (R93); none only where the machine is not runnable (20_memory.md R59). -/
def fetch (s : State) : Option InstrWord := s.program[s.pc.toNat]?


/-- Step 4: `pc <- (pc + 1) mod 2^12`, the one increment site (40_execution_cycle.md R95). -/
def advance (s : State) : State := { s with pc := s.pc + 1#12 }

/-- Steps 3c and 4 of an instruction that completed step 3b (R91): its step event, then the increment. -/
def retire (i : Instr) (s : State) (d : StepDetail s.xlen) : State :=
  advance { s with trace := s.trace ++ [.step i.kind i.operand d] }

/-! ## Placing a program word -/

/-- A program with word `w` at index `n`; indices before it that the program lacks hold zero words. -/
def placeWord : List InstrWord → Nat → InstrWord → List InstrWord
  | [], 0, w => [w]
  | [], n + 1, w => 0 :: placeWord [] n w
  | _ :: p, 0, w => w :: p
  | x :: p, n + 1, w => x :: placeWord p n w

end Sys2Proof.Machine
end

