-- ==== Sys2Proof/Machine/Operands.lean ====
section
/-!
DEFINITION. The operand forms (30_encoding.md R71, R74): the 12-bit operand is a data address under
LOAD, STORE, ADD and SUB, a program index under JUMP, and nothing under NOP and HALT. The only
addressing mode is absolute (41_load_store.md).
-/

namespace Sys2Proof.Machine

/-- The effective address, `ea = zext(word[11:0])` (41_load_store.md): a cell index, never scaled,
never sign-extended. -/
def dataAddress (a : Operand) : Nat := a.toNat

/-- What a taken JUMP leaves in `pc` before the common increment: `(target - 1) mod 2^12`
(43_control.md R130, R131). -/
def jumpIntermediate (target : Operand) : PcWord := target - 1#12

end Sys2Proof.Machine
end

