-- ==== Sys2Proof/Machine/Arithmetic.lean ====
section
/-!
DEFINITION. ADD and SUB (42_arithmetic.md): `XLEN`-bit two's-complement arithmetic that wraps modulo
`2^XLEN`, without a flag and without a fault (R122).
-/

namespace Sys2Proof.Machine

/-- What ADD and SUB share: read the cell, replace the accumulator by `f acc cell`, report the operand
value and the new accumulator (R120, R121). -/
def execAlu (i : Instr) (f : (w : Nat) → BitVec w → BitVec w → BitVec w) (a : Operand) (s : State) :
    Host.Outcome State Fault Refusal :=
  match memRead s (dataAddress a) with
  | .error c => .next (raise c s)
  | .ok m => .next (retire i { s with acc := f s.xlen s.acc m } (.arithmetic m (f s.xlen s.acc m)))

/-- ADD addr: `acc <- (acc + m) mod 2^XLEN` (R120). -/
def execAdd (a : Operand) (s : State) : Host.Outcome State Fault Refusal :=
  execAlu (.add a) (fun _ x y => x + y) a s

/-- SUB addr: `acc <- (acc - m) mod 2^XLEN` (R121). -/
def execSub (a : Operand) (s : State) : Host.Outcome State Fault Refusal :=
  execAlu (.sub a) (fun _ x y => x - y) a s

end Sys2Proof.Machine
end

