-- ==== Sys2Proof/Machine/Flags.lean ====
section
/-!
DEFINITION. There are no condition codes (10_state.md R29): ADD and SUB write only `acc`. The one
condition an instruction computes is JUMP's test of the accumulator.
-/

namespace Sys2Proof.Machine

/-- `acc = 0`, all `XLEN` bits zero (43_control.md R130). -/
def accIsZero (s : State) : Bool := s.acc == 0#s.xlen

end Sys2Proof.Machine
end

