-- ==== Sys2Proof/Machine/Control.lean ====
section
/-!
DEFINITION. JUMP, NOP and HALT (43_control.md). None of them raises, whatever its operand (R130, R132,
R133, 60_exceptions.md R172).
-/

namespace Sys2Proof.Machine

/-- JUMP target: branch if the accumulator is zero (R130). A taken JUMP sets `pc` to `target - 1` and
the common increment makes it `target`, zero-based (90_conflicts.md C1). -/
def execJump (t : Operand) (s : State) : Host.Outcome State Fault Refusal :=
  if accIsZero s then .next (retire (.jump t) { s with pc := jumpIntermediate t } (.jump true))
  else .next (retire (.jump t) s (.jump false))

/-- NOP: no state change but the common steps; the operand is ignored (R132). -/
def execNop (x : Operand) (s : State) : Host.Outcome State Fault Refusal :=
  .next (retire (.nop x) s .plain)

/-- HALT: set `halted`; the operand is ignored and the increment of `pc` still happens (R133,
90_conflicts.md C2). -/
def execHalt (x : Operand) (s : State) : Host.Outcome State Fault Refusal :=
  .next (retire (.halt x) { s with halted := true } .plain)

end Sys2Proof.Machine
end

