-- ==== Sys2Proof/Machine/LoadStore.lean ====
section
/-!
DEFINITION. LOAD and STORE (41_load_store.md). A meaning is steps 3b, 3c and 4 of the cycle of
40_execution_cycle.md R91, from the state after step 1.
-/

namespace Sys2Proof.Machine

/-- LOAD addr: copy a memory cell into the accumulator (R110). -/
def execLoad (a : Operand) (s : State) : Host.Outcome State Fault Refusal :=
  match memRead s (dataAddress a) with
  | .error c => .next (raise c s)
  | .ok v => .next (retire (.load a) { s with acc := v } (.loaded v (dataAddress a)))

/-- STORE addr: copy the accumulator into a memory cell (R111). -/
def execStore (a : Operand) (s : State) : Host.Outcome State Fault Refusal :=
  match memWrite s (dataAddress a) s.acc with
  | .error c => .next (raise c s)
  | .ok t => .next (retire (.store a) t (.stored t.acc (dataAddress a)))

end Sys2Proof.Machine
end

