-- ==== Sys2Proof/Machine/Dispatch.lean ====
section
/-!
DEFINITION. Steps 3b, 3c and 4 of the cycle (40_execution_cycle.md R91, R94), by instruction.
-/

namespace Sys2Proof.Machine

def exec (i : Instr) (s : State) : Host.Outcome State Fault Refusal :=
  match i with
  | .load a => Sys2Proof.Machine.execLoad a s
  | .store a => Sys2Proof.Machine.execStore a s
  | .add a => Sys2Proof.Machine.execAdd a s
  | .sub a => Sys2Proof.Machine.execSub a s
  | .jump t => Sys2Proof.Machine.execJump t s
  | .nop x => Sys2Proof.Machine.execNop x s
  | .halt x => Sys2Proof.Machine.execHalt x s

end Sys2Proof.Machine
end

