-- ==== Sys2Proof/Machine/Cycle.lean ====
section
/-!
DEFINITION. One cycle (40_execution_cycle.md R91) and one iteration of the loop of `run` (R90, R97).
-/

namespace Sys2Proof.Machine

/-- The cycle of R91, its precondition `Runnable`: count, fetch, decode, execute. A word with no
instruction raises UnknownOpcode (60_exceptions.md R171). Where there is no word at `pc` the machine is
not runnable and nothing happens (20_memory.md R59). -/
def cycle (s : State) : Host.Outcome State Fault Refusal :=
  match fetch s with
  | none => .next s
  | some w =>
    match decodeWord w with
    | .error _ => .next (raise .unknownOpcode (countCycle s))
    | .ok i => exec i (countCycle s)

/-- One iteration of the loop of `run`: a cycle if and only if the machine is runnable (R90). Halted
and Off the end machines execute no cycle and stay as they are (R99, log 6); a Faulted machine stops
with its cause (60_exceptions.md R175, log 5). -/
def stepOnce (s : State) : Host.Outcome State Fault Refusal :=
  match s.condition with
  | .runnable => cycle s
  | .halted => .next s
  | .offEnd => .next s
  | .faulted => .fault (faultOfCode s.fault)

/-- `s` with word `w` at the index it fetches from, and runnable: the load of a program that puts `w`
there (log 3). -/
def loadWordAtPc (s : State) (w : InstrWord) : State :=
  { s with program := placeWord s.program s.pc.toNat w, halted := false, fault := 0#2 }

end Sys2Proof.Machine
end

