-- ==== Sys2Proof/Machine/Step.lean ====
section
/-!
DEFINITION. The machine's step: one iteration of the loop of `run` (40_execution_cycle.md R90, R97).
-/

namespace Sys2Proof.Machine

/-- One step of the engine while `run` is asserted. -/
def step (s : State) : Host.Outcome State Fault Refusal := stepOnce s

/-- `s` with the word of the low `nbits` bits of `w` where `step` fetches its next instruction, and
runnable, so that the next step executes it (log 3). -/
def State.withFetchWord (s : State) (nbits w : Nat) : State :=
  loadWordAtPc s (BitVec.ofNat 16 (w % 2 ^ nbits))

end Sys2Proof.Machine
end

