-- ==== Sys2Proof/Machine/Asm.lean ====
section
/-!
DEFINITION. The assembly syntax (30_encoding.md R81), on lists of characters: the mnemonic in upper
case, one space, the operand as an unsigned decimal numeral 0 to 4095; the operand of NOP and HALT may
be omitted and then assembles as 0. No labels, directives or pseudo-instructions.
-/

namespace Sys2Proof.Machine

/-- The mnemonics as characters (R75, R81). -/
def mnemonicChars : Kind → List Char
  | .load => ['L', 'O', 'A', 'D']
  | .store => ['S', 'T', 'O', 'R', 'E']
  | .add => ['A', 'D', 'D']
  | .sub => ['S', 'U', 'B']
  | .jump => ['J', 'U', 'M', 'P']
  | .nop => ['N', 'O', 'P']
  | .halt => ['H', 'A', 'L', 'T']

/-- The kind a mnemonic names. -/
def kindOfMnemonic (name : List Char) : Option Kind :=
  [Kind.load, .store, .add, .sub, .jump, .nop, .halt].find? (fun k => mnemonicChars k == name)

/-- The value of a decimal digit. -/
def digitValue (c : Char) : Option Nat :=
  if 48 ≤ c.toNat ∧ c.toNat ≤ 57 then some (c.toNat - 48) else none

/-- The value of an unsigned decimal numeral with at least one digit (log 17 for leading zeros). -/
def numeralValue : List Char → Option Nat
  | [] => none
  | c :: cs => (c :: cs).foldlM (fun n d => (digitValue d).map (fun v => 10 * n + v)) 0

/-- The decimal digits of a number below 10000, without leading zeros. -/
def numeralOf (n : Nat) : List Char :=
  let d := fun k => Char.ofNat (48 + k % 10)
  if n < 10 then [d n]
  else if n < 100 then [d (n / 10), d n]
  else if n < 1000 then [d (n / 100), d (n / 10), d n]
  else [d (n / 1000), d (n / 100), d (n / 10), d n]

/-- One instruction as text (R81). -/
def asmOf (i : Instr) : List Char := mnemonicChars i.kind ++ ' ' :: numeralOf i.operand.toNat

/-- One instruction from its text (R81), none where the text is none. -/
def parseAsm (line : List Char) : Option Instr :=
  match kindOfMnemonic (line.takeWhile (· != ' ')), line.dropWhile (· != ' ') with
  | some k, _ :: digits =>
    match numeralValue digits with
    | some n => if n ≤ Config.maxOperand then some (k.withOperand (BitVec.ofNat 12 n)) else none
    | none => none
  | some .nop, [] => some (.nop 0)
  | some .halt, [] => some (.halt 0)
  | _, _ => none

/-- A program from its lines (R81: "one instruction per line or list element"), as words. -/
def assemble (lines : List (List Char)) : Option (List InstrWord) :=
  lines.mapM (fun l => (parseAsm l).map encode)

end Sys2Proof.Machine
end

