-- ==== Sys2Proof/Machine/HostOps.lean ====
section
/-!
DEFINITION. What the host does to the engine between runs (45_interfaces_and_trace.md R151): construct,
run, reset, preload, observe. The host does nothing else (R153, log 9).
-/

namespace Sys2Proof.Machine

/-- `construct` (R152): the reset state (10_state.md R38) with the given parameters, which nothing
changes afterwards. It emits no event (70_reset_and_hazards.md R204). The program is not checked. -/
def construct (p : Params) : State where
  xlen := p.xlen
  memSize := p.memSize
  program := p.program
  acc := 0#p.xlen
  pc := 0#12
  halted := false
  cycleCount := 0#64
  fault := 0#2
  mem := []
  elapsedTime := 0
  elapsedDraws := 0
  trace := []

/-- The parameters a state was constructed with. -/
def State.params (s : State) : Params := { xlen := s.xlen, memSize := s.memSize, program := s.program }

/-- `preload(a, v)` (R151, 20_memory.md R63): set `mem[a]` for `a < MEM_SIZE`; no move for any other
address. -/
def preload (s : State) (a : Nat) (v : BitVec s.xlen) : Option State :=
  if a < s.memSize then some { s with mem := s.mem.write a v } else none

/-- The canonical memory whose cell `a` is `m0 a` for `a < n`. -/
def Memory.ofCells {w : Nat} (m0 : Nat → BitVec w) : Nat → Memory w
  | 0 => []
  | n + 1 => (Memory.ofCells m0 n).write n (m0 n)

/-- The launch state: the reset state with data memory replaced by `M0` (00_scope.md R7, R12). -/
def launch (p : Params) (m0 : Nat → BitVec p.xlen) : State :=
  { construct p with mem := Memory.ofCells m0 p.memSize }

/-- `reset` (70_reset_and_hazards.md R200): every piece of state to its reset value, the parameters
untouched (R201), and a reset notice. The count of draws is the model's own and goes on (log 8). -/
def hostReset (s : State) : State :=
  { s with
    acc := 0#s.xlen
    pc := 0#12
    halted := false
    cycleCount := 0#64
    fault := 0#2
    mem := []
    elapsedTime := 0
    trace := s.trace ++ [.resetNotice] }

/-- The summary event of the state (45_interfaces_and_trace.md R159). -/
def summaryOf (s : State) : TraceEvent s.xlen :=
  .summary s.cycleCount s.elapsedTime s.acc s.pc (s.mem.dump s.memSize)

/-- `elapsed_time` takes a fresh unconstrained value (10_state.md R34). -/
def drawElapsed (s : State) : State :=
  { s with elapsedTime := Config.elapsedTime s.elapsedDraws, elapsedDraws := s.elapsedDraws + 1 }

/-- The end of a `run` (40_execution_cycle.md R97): the summary if and only if `fault = 0`
(60_exceptions.md R176). -/
def endRun (s : State) : State :=
  let t := drawElapsed s
  if t.fault = 0#2 then { t with trace := t.trace ++ [summaryOf t] } else t

/-- `run` (R97) under fuel: "an executor may run under fuel, and a run that exhausts fuel has no final
state" (R101). The machine itself sets no limit. -/
def run : Nat → State → Option State
  | 0, s => if s.condition = .runnable then none else some (endRun s)
  | fuel + 1, s =>
    if s.condition = .runnable then
      match cycle s with
      | .next t => run fuel t
      | .fault _ => none
      | .refused _ => none
    else some (endRun s)

/-- The state after `k` iterations of the loop of `run`, the machine staying as it is once it is not
runnable. -/
def afterCycles : Nat → State → State
  | 0, s => s
  | k + 1, s =>
    if s.condition = .runnable then
      match cycle s with
      | .next t => afterCycles k t
      | .fault _ => s
      | .refused _ => s
    else s

/-- A `run` that `rst` stops at the boundary after `k` cycles, the machine being runnable there; it emits
no summary (70_reset_and_hazards.md R202, R203; log 10). DESIGN CHOICE, log 19: where the machine is no
longer runnable at that boundary, or stopped before it, the spec does not say whether the summary of
40_execution_cycle.md R97 precedes the reset notice; here it does not. -/
def runStoppedByReset (k : Nat) (s : State) : State := hostReset (afterCycles k s)

/-- What the host can read between runs (45_interfaces_and_trace.md R156). -/
structure Observation (w : Nat) where
  acc : BitVec w
  pc : PcWord
  halted : Bool
  fault : FaultCode
  cycleCount : Count
  cells : List (BitVec w)
deriving DecidableEq, Repr

/-- `observe` (R156): reads without changing anything. -/
def observe (s : State) : Observation s.xlen where
  acc := s.acc
  pc := s.pc
  halted := s.halted
  fault := s.fault
  cycleCount := s.cycleCount
  cells := s.mem.dump s.memSize

/-- The state without its outputs: the trace (45_interfaces_and_trace.md R157) and `elapsed_time`
(10_state.md R34), which no rule reads. -/
def State.architectural (s : State) : State :=
  { s with elapsedTime := 0, elapsedDraws := 0, trace := [] }

/-- An event without its `elapsed_time` (90_conflicts.md C4). -/
def TraceEvent.withoutElapsed {w : Nat} : TraceEvent w → TraceEvent w
  | .summary c _ a p cells => .summary c 0 a p cells
  | .step k x d => .step k x d
  | .resetNotice => .resetNotice

/-- The event is a step event (45_interfaces_and_trace.md R158). -/
def TraceEvent.isStep {w : Nat} : TraceEvent w → Bool
  | .step _ _ _ => true
  | .summary _ _ _ _ _ => false
  | .resetNotice => false

end Sys2Proof.Machine
end

