-- ==== Sys2Proof/Machine/Ports.lean ====
section
/-!
DEFINITION. The signal-level reading (45_interfaces_and_trace.md R154, R155, R162): the outputs as
functions of the state and of `rst` and `run`, the control table, the datapath it drives, and the clock with `rst` and `run`.
No timing is attached. A value the spec calls valid only with an enable is free without it (log 13).
-/

namespace Sys2Proof.Machine

/-- Where the next `acc` comes from (R155). -/
inductive AccSource where
  | hold | dmemRdata | sum | difference
deriving DecidableEq, Repr

/-- Where the next `pc` comes from (R155). -/
inductive PcSource where
  | hold | increment | operand
deriving DecidableEq, Repr

/-- One row of the control table (R155). -/
structure Controls where
  dmemRe : Bool
  dmemWe : Bool
  acc : AccSource
  pc : PcSource
  setHalted : Bool
  faultNext : FaultCode
deriving DecidableEq, Repr

/-- The row in which every enable is 0 and `pc` is held, for a fault (R155). -/
def Controls.faulting (c : FaultCode) : Controls :=
  { dmemRe := false, dmemWe := false, acc := .hold, pc := .hold, setHalted := false, faultNext := c }

/-- The table of R155: the row of a kind, or of an opcode 7 to 15, given whether `acc = 0`. -/
def controlRow (accZero : Bool) : Option Kind → Controls
  | some .load => ⟨true, false, .dmemRdata, .increment, false, 0⟩
  | some .store => ⟨false, true, .hold, .increment, false, 0⟩
  | some .add => ⟨true, false, .sum, .increment, false, 0⟩
  | some .sub => ⟨true, false, .difference, .increment, false, 0⟩
  | some .jump => ⟨false, false, .hold, if accZero then .operand else .increment, false, 0⟩
  | some .nop => ⟨false, false, .hold, .increment, false, 0⟩
  | some .halt => ⟨false, false, .hold, .increment, true, 0⟩
  | none => Controls.faulting 1

/-- The controls for the word: its row, but for an access at or above `MEM_SIZE`, where "every enable
in the row is 0, `pc` is held and `fault <- 2`" (R155). -/
def controls (s : State) (w : InstrWord) : Controls :=
  let row := controlRow (s.acc == 0#s.xlen) (kindOf (opcodeOf w))
  if (row.dmemRe || row.dmemWe) && decide (s.memSize ≤ (operandOf w).toNat) then Controls.faulting 2
  else row

/-- The step event that the cycle from `s` on word `w` emits, none where it raises: the event of R158
written from the table, not from `exec`. -/
def stepEventOf (s : State) (w : InstrWord) : Option (TraceEvent s.xlen) :=
  let a := operandOf w
  let m := s.mem.read a.toNat
  if (controls s w).faultNext ≠ 0#2 then none
  else
    match kindOf (opcodeOf w) with
    | some .load => some (.step .load a (.loaded m a.toNat))
    | some .store => some (.step .store a (.stored s.acc a.toNat))
    | some .add => some (.step .add a (.arithmetic m (s.acc + m)))
    | some .sub => some (.step .sub a (.arithmetic m (s.acc - m)))
    | some .jump => some (.step .jump a (.jump (s.acc == 0#s.xlen)))
    | some .nop => some (.step .nop a .plain)
    | some .halt => some (.step .halt a .plain)
    | none => none

/-- What the controls make of the state in one cycle on the word, and the step event of the cycle, none
where it faults. -/
def datapath (s : State) (w : InstrWord) : State :=
  let c := controls s w
  let rdata := s.mem.read (operandOf w).toNat
  { s with
    cycleCount := s.cycleCount + 1#64
    acc :=
      match c.acc with
      | .hold => s.acc
      | .dmemRdata => rdata
      | .sum => s.acc + rdata
      | .difference => s.acc - rdata
    mem := if c.dmemWe then s.mem.write (operandOf w).toNat s.acc else s.mem
    pc :=
      match c.pc with
      | .hold => s.pc
      | .increment => s.pc + 1#12
      | .operand => operandOf w
    halted := s.halted || c.setHalted
    fault := if c.faultNext = 0#2 then s.fault else c.faultNext
    trace := s.trace ++ (stepEventOf s w).toList }

/-- The word on `imem_data`, sampled only when the machine is runnable (R154). -/
def imemData (s : State) : Option InstrWord :=
  if s.condition = .runnable then fetch s else none

/-- The word of the cycle that the block executes under `rst` and `run`, none where it executes none: a
cycle needs `run` asserted on a runnable machine, and `rst` has priority (R154, 60_exceptions.md R178). -/
def currentWord (rst runIn : Bool) (s : State) : Option InstrWord :=
  if !rst && runIn then imemData s else none

/-- The outputs that show state (R154), and the data-memory port. -/
structure Outputs (w : Nat) where
  imemAddr : PcWord
  dmemAddr : Operand
  dmemRe : Bool
  dmemWe : Bool
  dmemWdata : BitVec w
  dmemRdata : BitVec w
  accO : BitVec w
  pcO : PcWord
  haltedO : Bool
  faultO : FaultCode
  cycleCountO : Count
  doneO : Bool
deriving DecidableEq, Repr

/-- The word addresses data memory: a LOAD, STORE, ADD or SUB (R154: `dmem_addr` is the operand of
these, in range or not). -/
def addressesMemory (w : InstrWord) : Bool := decide ((opcodeOf w).toNat ≤ 3)

/-- The ports in a state under `rst` and `run` (R154). The outputs that show state and `imem_addr` are
those of the state, `done_o` is not runnable. The data-memory enables are those of the controls of the
word that executes; where no cycle executes both are 0, there being no read or write, and `dmem_addr` is
free, there being no current LOAD, STORE, ADD or SUB (log 13). `dmem_rdata` is an input of the control
logic, driven by the array inside the block. -/
def outputs (rst runIn : Bool) (s : State) : Outputs s.xlen :=
  let word := currentWord rst runIn s
  let re := match word with | some w => (controls s w).dmemRe | none => false
  let we := match word with | some w => (controls s w).dmemWe | none => false
  let k := s.cycleCount.toNat
  let n := s.trace.length
  { imemAddr := s.pc
    dmemAddr :=
      match word with
      | some w => if addressesMemory w then operandOf w else Config.portDmemAddr k n
      | none => Config.portDmemAddr k n
    dmemRe := re
    dmemWe := we
    dmemWdata := if we then s.acc else Config.portDmemWdata s.xlen k n
    dmemRdata :=
      match word with
      | some w => if re then s.mem.read (operandOf w).toNat else Config.portDmemRdata s.xlen k n
      | none => Config.portDmemRdata s.xlen k n
    accO := s.acc
    pcO := s.pc
    haltedO := s.halted
    faultO := s.fault
    cycleCountO := s.cycleCount
    doneO := decide (s.condition ≠ .runnable) }

/-- The trace bundle (R162): `trace_valid` and the `trace_*` fields. -/
structure TraceBundle (w : Nat) where
  valid : Bool
  kind : BitVec 3
  operand : Operand
  value : BitVec w
  acc : BitVec w
  taken : Bool
deriving DecidableEq, Repr

/-- The bundle of a step event (R162); the fields the kind does not define carry any value. `k` and `n`
only select the free values. The summary and the reset notice have no port form. -/
def bundleOf {w : Nat} (k n : Nat) : TraceEvent w → TraceBundle w
  | .step kind x d =>
    { valid := true
      kind := kind.opcode.extractLsb' 0 3
      operand := x
      value :=
        match d with
        | .loaded v _ => v
        | .stored v _ => v
        | .arithmetic m _ => m
        | .jump _ => Config.portTraceValue w k n
        | .plain => Config.portTraceValue w k n
      acc :=
        match d with
        | .arithmetic _ a => a
        | .loaded _ _ => Config.portTraceAcc w k n
        | .stored _ _ => Config.portTraceAcc w k n
        | .jump _ => Config.portTraceAcc w k n
        | .plain => Config.portTraceAcc w k n
      taken :=
        match d with
        | .jump t => t
        | .loaded _ _ => Config.portTraceTaken k n
        | .stored _ _ => Config.portTraceTaken k n
        | .arithmetic _ _ => Config.portTraceTaken k n
        | .plain => Config.portTraceTaken k n }
  | .summary _ _ _ _ _ => idleBundle k n
  | .resetNotice => idleBundle k n
where
  /-- No pulse: `trace_valid` is 0 and the other fields are free. -/
  idleBundle {w : Nat} (k n : Nat) : TraceBundle w :=
    { valid := false
      kind := Config.portTraceKind k n
      operand := Config.portTraceOperand k n
      value := Config.portTraceValue w k n
      acc := Config.portTraceAcc w k n
      taken := Config.portTraceTaken k n }

/-- The trace bundle under `rst` and `run`, for the cycle that the block executes from the state: "one
pulse per completed cycle with the fields of the step event" (R154), and none where no cycle executes. -/
def traceBundle (rst runIn : Bool) (s : State) : TraceBundle s.xlen :=
  let k := s.cycleCount.toNat
  let n := s.trace.length
  match currentWord rst runIn s with
  | none => bundleOf.idleBundle k n
  | some w =>
    match stepEventOf s w with
    | none => bundleOf.idleBundle k n
    | some e => bundleOf k n e

/-- One clock of the port form: `rst` "performs `reset`" and "has priority over `run`"; "while asserted
and the machine is runnable, the engine executes cycles, one after another" (R154, 60_exceptions.md
R178). With `run` for one clock the host single-steps (R186). DESIGN CHOICE, log 20: every clock in which
`rst` is asserted performs one whole `reset` with its own notice; the spec does not say what `rst` held
over several cycle boundaries does. -/
def clock (rst runIn : Bool) (s : State) : State :=
  if rst then hostReset s
  else if runIn && decide (s.condition = .runnable) then
    match cycle s with
    | .next t => t
    | .fault _ => s
    | .refused _ => s
  else s

end Sys2Proof.Machine
end

