-- ==== Sys2Proof/Machine/Walk.lean ====
section
/-!
DEFINITION. The pipeline-mode walk (44_pipeline_walk.md): a second executor in software, outside the
hardware block (00_scope.md R4), on state of its own. As R146 advises it is the same cycle used a
second time, not a restatement: the walk's accumulator, memory, index and cycle counter are those of a
private machine constructed afresh.
-/

namespace Sys2Proof.Machine

/-- The per-cycle line: "the cycle number, instruction, and operand" (R143). -/
structure WalkLine where
  cycleNumber : Count
  kind : Kind
  operand : Operand
deriving DecidableEq, Repr

/-- How a walk has ended (R143, R144). -/
inductive WalkEnd where
  /-- HALT: "early and silently (no summary)". -/
  | silent
  /-- Past the program's end: "reports total cycles and final accumulator", see `reportOf`. -/
  | reported
  /-- A fault: "ends the walk with no report" (R144). -/
  | faulted
deriving DecidableEq, Repr

/-- A walk in progress or ended: its private machine (R141), the lines so far, and its end. -/
structure Walk where
  engine : State
  lines : List WalkLine
  ended : Option WalkEnd
deriving DecidableEq, Repr

/-- What a walk has reported, where it has: its total cycles and the value of its final accumulator
(R143). Its private machine does not move once the walk has ended. -/
def reportOf (k : Walk) : Option (Count × Nat) :=
  if k.ended = some .reported then some (k.engine.cycleCount, k.engine.acc.toNat) else none

/-- The start of a walk (R141): the same program and memory size, everything else zero, whatever the
engine's own state is. -/
def walkStart (s : State) : Walk := { engine := construct s.params, lines := [], ended := none }

/-- One cycle of a walk (R142, R143, R144): the cycle of 40_execution_cycle.md R91 on the private
machine, then the line, also for HALT. A cycle that faults has no line (log 14). -/
def walkCycle (k : Walk) : Walk :=
  match k.ended with
  | some _ => k
  | none =>
    match fetch k.engine, cycle k.engine with
    | some w, .next t =>
      if t.fault ≠ 0#2 then { engine := t, lines := k.lines, ended := some .faulted }
      else
        match decodeWord w with
        | .ok i =>
          { engine := t
            lines := k.lines ++ [{ cycleNumber := t.cycleCount, kind := i.kind, operand := i.operand }]
            ended := if i.kind = .halt then some .silent else none }
        | .error _ => { engine := t, lines := k.lines, ended := some .faulted }
    | _, _ => { k with ended := some .reported }

/-- A walk after at most `n` iterations. -/
def walkCycles : Nat → Walk → Walk
  | 0, k => k
  | n + 1, k => walkCycles n (walkCycle k)

end Sys2Proof.Machine
end

