-- ==== Sys2Proof/Safety.lean ====
section
/-!
DEFINITION. The predicates that claims are stated with: what every reachable state satisfies, what a
good end of a run is, and the law of the reset state.
-/

namespace Sys2Proof.Machine

/-- The instance's parameters are in their ranges (00_scope.md R7). -/
abbrev State.instanceOk (s : State) : Prop :=
  1 ≤ s.xlen ∧ s.memSize ≤ Config.maxMemSize ∧ s.program.length ≤ Config.maxProgLen

/-- Data memory is in canonical form and lists only cells that exist (20_memory.md R51). -/
abbrev State.memoryOk (s : State) : Prop := s.mem.wf ∧ s.mem.below s.memSize

/-- Faults are precise (60_exceptions.md R170, R174, R177): where `fault` is not 0 it names what is
wrong with the word at `pc`, and `halted` is not set (R175). -/
abbrev State.faultPrecise (s : State) : Prop :=
  s.fault = 0#2 ∨
    (s.halted = false ∧ ∃ w ∈ s.program[s.pc.toNat]?,
      (s.fault = FaultCause.code .unknownOpcode ∧ 7 ≤ (opcodeOf w).toNat) ∨
      (s.fault = FaultCause.code .addressOutOfRange ∧ (opcodeOf w).toNat ≤ 3 ∧
        s.memSize ≤ (operandOf w).toNat))

/-- The invariant of the machine. -/
abbrev State.Inv (s : State) : Prop := s.instanceOk ∧ s.memoryOk ∧ s.faultPrecise

/-- Every data value is zero (43_control.md R137). -/
abbrev State.allZero (s : State) : Prop := s.acc = 0#s.xlen ∧ ∀ c ∈ s.mem, c.2 = 0#s.xlen

/-- A run is safe as long as no fault is recorded (60_exceptions.md R175: "a claim about a program's
result takes `fault = 0` at the end"). -/
abbrev State.safe (s : State) : Prop := s.fault = 0#2

/-- Normal termination (10_state.md R40): Halted or Off the end, one outcome in the summary
(40_execution_cycle.md R98). -/
abbrev State.terminatedNormally (s : State) : Prop := s.condition = .halted ∨ s.condition = .offEnd

/-- The word the machine is about to execute decodes to `i`. -/
abbrev State.aboutTo (s : State) (i : Instr) : Prop :=
  s.Runnable ∧ ∃ w ∈ fetch s, decodeWord w = .ok i

end Sys2Proof.Machine
end

