-- ==== Sys2Proof/WellFormed.lean ====
section
/-!
DEFINITION. What can be written down: the abstract instruction of 30_encoding.md R70 with its integer
operand, of which R74 lets only 0 to 4095 through, and the ranges of the construction parameters
(00_scope.md R7). A term of `Instr` is well formed by its type (a 12-bit operand, R74, R78, R79), so
the check stands in front of `Instr`.
-/

namespace Sys2Proof

/-- The source's instruction: "an immutable pair of two fields", an opcode and an integer operand
(30_encoding.md R70). -/
structure AbstractInstr where
  kind : Kind
  operand : Int
deriving DecidableEq, Repr

/-- The operand is representable: an unsigned integer 0 to 4095 (30_encoding.md R73, R74). "Negative
operands ... are not representable." No kind reserves a value (R78, R79). -/
def AbstractInstr.wellFormed (i : AbstractInstr) : Bool :=
  decide (0 ≤ i.operand) && decide (i.operand ≤ (Config.maxOperand : Int))

/-- The instruction an abstract one stands for, or none where its operand is not representable
(93_implementation_defined.md U11: refused before the machine). -/
def AbstractInstr.toInstr (i : AbstractInstr) : Option Instr :=
  if i.wellFormed then
    let a : Operand := BitVec.ofNat 12 i.operand.toNat
    match i.kind with
    | .load => some (.load a)
    | .store => some (.store a)
    | .add => some (.add a)
    | .sub => some (.sub a)
    | .jump => some (.jump a)
    | .nop => some (.nop a)
    | .halt => some (.halt a)
  else none

/-- The parameter ranges of 00_scope.md R7: `XLEN >= 1`, `MEM_SIZE` 0 to 4096, `PROG_LEN` 0 to 4095.
The program's words are not checked (45_interfaces_and_trace.md R152). -/
def Params.wellFormed (p : Params) : Bool :=
  decide (1 ≤ p.xlen) && decide (p.memSize ≤ Config.maxMemSize) &&
    decide (p.program.length ≤ Config.maxProgLen)

end Sys2Proof
end

