-- ==== Sys2Proof/Certificates/Slice0/Obligations.lean ====
section
/-!
DEFINITION. The statements about the model, from the numbered rules of spec/. Each docstring names the
rules it formalises. A statement ranges over every state, so over every `XLEN`, `MEM_SIZE` and program;
where it could fail only in states no run reaches it takes the invariant `State.Inv`, or the part of it
it needs, as a premise. A cell of width `w` is written `BitVec w`; `{ s with ... }` names every piece of
state an instruction writes, so an equation with it is also the instruction's frame.
-/

open Sys2Proof Sys2Proof.Machine

/-! ## Encoding -/

/-- Decoding the encoding of any instruction, with every operand, gives it back (30_encoding.md R73,
R75). -/
def Obligations.DecodeEncodeAgree : Prop := ∀ i : Instr, decodeWord (encode i) = .ok i

/-- A word that decodes is the encoding of what it decodes to, so no bit of a word is dropped, not even
in the ignored operand of NOP and HALT (R73, R78). -/
def Obligations.EncodeDecodeAgree : Prop :=
  ∀ (w : InstrWord) (i : Instr), decodeWord w = .ok i → encode i = w

/-- R73: `word = opcode * 4096 + operand`, opcode in bits 15:12 and operand in bits 11:0. -/
def Obligations.WordIsOpcodeThenOperand : Prop :=
  (∀ i : Instr, (encode i).toNat = i.kind.opcode.toNat * 4096 + i.operand.toNat) ∧
    ∀ w : InstrWord, (opcodeOf w).toNat = w.toNat / 4096 ∧ (operandOf w).toNat = w.toNat % 4096

/-- R75: each row of the opcode map reads the words it covers as its kind with the low 12 bits as
operand; the rows' opcodes are 0 to 6 in order with mask `0xF000`; a word no row covers has an opcode
of 7 to 15 and decodes to no instruction. -/
def Obligations.DecodeFollowsOpcodeMap : Prop :=
  (opcodeTable.map (fun r => (r.mnemonic, r.bits.toNat / 4096, r.mask.toNat)) =
    [("LOAD", 0, 0xF000), ("STORE", 1, 0xF000), ("ADD", 2, 0xF000), ("SUB", 3, 0xF000),
     ("JUMP", 4, 0xF000), ("NOP", 5, 0xF000), ("HALT", 6, 0xF000)]) ∧
  (∀ r ∈ opcodeTable, r.kind.mnemonic = r.mnemonic) ∧
  ∀ w : InstrWord,
    (∀ r ∈ opcodeTable, r.covers w = true →
      decodeWord w = .ok (r.kind.withOperand (BitVec.ofNat 12 w.toNat))) ∧
    ((∀ r ∈ opcodeTable, r.covers w = false) →
      7 * 4096 ≤ w.toNat ∧ ∃ e, decodeWord w = .error e)

/-- R76: decode is total, every word selects exactly one kind or has an opcode of 7 to 15, and the kind
depends on `word[15:12]` only. -/
def Obligations.DecodeByOpcodeAlone : Prop :=
  ∀ w : InstrWord,
    ((∃ i, decodeWord w = .ok i) ∨ 7 ≤ (opcodeOf w).toNat) ∧
    ¬((∃ i, decodeWord w = .ok i) ∧ 7 ≤ (opcodeOf w).toNat) ∧
    ∀ (v : InstrWord) (i : Instr), opcodeOf v = opcodeOf w → decodeWord w = .ok i →
      ∃ j, decodeWord v = .ok j ∧ j.kind = i.kind

/-- The encoding vectors E1 to E12 of 95_test_vectors.md, one for every kind and for the illegal
opcodes. -/
def Obligations.EncodingVectors : Prop :=
  decodeWord 0x0000 = .ok (.load 0) ∧ decodeWord 0x0FFF = .ok (.load 4095) ∧
  decodeWord 0x100F = .ok (.store 15) ∧ decodeWord 0x2001 = .ok (.add 1) ∧
  decodeWord 0x3003 = .ok (.sub 3) ∧ decodeWord 0x4005 = .ok (.jump 5) ∧
  decodeWord 0x5000 = .ok (.nop 0) ∧ decodeWord 0x5ABC = .ok (.nop 2748) ∧
  decodeWord 0x6000 = .ok (.halt 0) ∧ decodeWord 0x6FFF = .ok (.halt 4095) ∧
  decodeWord 0x7000 = .error (.unknownOpcode 7) ∧ decodeWord 0x8000 = .error (.unknownOpcode 8) ∧
  decodeWord 0xF123 = .error (.unknownOpcode 15) ∧ decodeWord 0xFFFF = .error (.unknownOpcode 15)

/-- R74: exactly the operands 0 to 4095 are representable, and the instruction keeps the operand's
value (zero-extended, never sign-extended or scaled) and the kind. -/
def Obligations.OnlyUnsignedOperandsRepresentable : Prop :=
  ∀ i : AbstractInstr,
    (0 ≤ i.operand ∧ i.operand ≤ 4095 →
      ∃ j, i.toInstr = some j ∧ j.kind = i.kind ∧ (j.operand.toNat : Int) = i.operand) ∧
    (i.operand < 0 ∨ 4095 < i.operand → i.toInstr = none)

/-- R81: the text of an instruction assembles back to it; the operand of NOP and HALT may be omitted
and is then 0. -/
def Obligations.AssemblyReadsBack : Prop :=
  (∀ i : Instr, parseAsm (asmOf i) = some i) ∧
  parseAsm (mnemonicChars .nop) = some (.nop 0) ∧ parseAsm (mnemonicChars .halt) = some (.halt 0) ∧
  ∀ k : Kind, k ≠ .nop → k ≠ .halt → parseAsm (mnemonicChars k) = none

/-! ## The seven instructions

`exec` is steps 3b, 3c and 4 of the cycle (40_execution_cycle.md R91); the clauses about `step` add the
count of step 1. -/

/-- R110: LOAD copies the cell into the accumulator, and faults at or above `MEM_SIZE`. -/
def Obligations.LoadCopiesCellToAcc : Prop :=
  ∀ (a : Operand) (s : State),
    (encode (.load a)).toNat = 0x0000 + a.toNat ∧
    (dataAddress a < s.memSize →
      exec (.load a) s = .next { s with
        acc := s.mem.read a.toNat
        pc := s.pc + 1#12
        trace := s.trace ++ [.step .load a (.loaded (s.mem.read a.toNat) a.toNat)] }) ∧
    (s.memSize ≤ dataAddress a → exec (.load a) s = .next { s with fault := 2#2 }) ∧
    (s.aboutTo (.load a) → dataAddress a < s.memSize →
      step s = .next { s with
        cycleCount := s.cycleCount + 1#64
        acc := s.mem.read a.toNat
        pc := s.pc + 1#12
        trace := s.trace ++ [.step .load a (.loaded (s.mem.read a.toNat) a.toNat)] }) ∧
    (s.aboutTo (.load a) → s.memSize ≤ dataAddress a →
      step s = .next { s with cycleCount := s.cycleCount + 1#64, fault := 2#2 })

/-- R111: STORE copies the accumulator into the cell, and faults at or above `MEM_SIZE`. -/
def Obligations.StoreCopiesAccToCell : Prop :=
  ∀ (a : Operand) (s : State),
    (encode (.store a)).toNat = 0x1000 + a.toNat ∧
    (dataAddress a < s.memSize →
      exec (.store a) s = .next { s with
        mem := s.mem.write a.toNat s.acc
        pc := s.pc + 1#12
        trace := s.trace ++ [.step .store a (.stored s.acc a.toNat)] } ∧
      ∀ b, (s.mem.write a.toNat s.acc).read b = if b = a.toNat then s.acc else s.mem.read b) ∧
    (s.memSize ≤ dataAddress a → exec (.store a) s = .next { s with fault := 2#2 }) ∧
    (s.aboutTo (.store a) → dataAddress a < s.memSize →
      step s = .next { s with
        cycleCount := s.cycleCount + 1#64
        mem := s.mem.write a.toNat s.acc
        pc := s.pc + 1#12
        trace := s.trace ++ [.step .store a (.stored s.acc a.toNat)] }) ∧
    (s.aboutTo (.store a) → s.memSize ≤ dataAddress a →
      step s = .next { s with cycleCount := s.cycleCount + 1#64, fault := 2#2 })

/-- R120: ADD, `acc <- (acc + mem[addr]) mod 2^XLEN`, and faults at or above `MEM_SIZE`. The sum is
taken on integers and narrowed (00_scope.md R10). -/
def Obligations.AddAddsCellToAcc : Prop :=
  ∀ (a : Operand) (s : State),
    (encode (.add a)).toNat = 0x2000 + a.toNat ∧
    (dataAddress a < s.memSize →
      exec (.add a) s = .next { s with
        acc := BitVec.ofNat s.xlen (s.acc.toNat + (s.mem.read a.toNat).toNat)
        pc := s.pc + 1#12
        trace := s.trace ++ [.step .add a (.arithmetic (s.mem.read a.toNat)
          (BitVec.ofNat s.xlen (s.acc.toNat + (s.mem.read a.toNat).toNat)))] }) ∧
    (s.memSize ≤ dataAddress a → exec (.add a) s = .next { s with fault := 2#2 }) ∧
    (s.aboutTo (.add a) → dataAddress a < s.memSize →
      step s = .next { s with
        cycleCount := s.cycleCount + 1#64
        acc := BitVec.ofNat s.xlen (s.acc.toNat + (s.mem.read a.toNat).toNat)
        pc := s.pc + 1#12
        trace := s.trace ++ [.step .add a (.arithmetic (s.mem.read a.toNat)
          (BitVec.ofNat s.xlen (s.acc.toNat + (s.mem.read a.toNat).toNat)))] }) ∧
    (s.aboutTo (.add a) → s.memSize ≤ dataAddress a →
      step s = .next { s with cycleCount := s.cycleCount + 1#64, fault := 2#2 })

/-- R121: SUB, `acc <- (acc - mem[addr]) mod 2^XLEN`, never `mem[addr] - acc`, and faults at or above
`MEM_SIZE`. The difference is taken on integers and narrowed (00_scope.md R10). -/
def Obligations.SubSubtractsCellFromAcc : Prop :=
  ∀ (a : Operand) (s : State),
    (encode (.sub a)).toNat = 0x3000 + a.toNat ∧
    (dataAddress a < s.memSize →
      exec (.sub a) s = .next { s with
        acc := BitVec.ofInt s.xlen ((s.acc.toNat : Int) - ((s.mem.read a.toNat).toNat : Int))
        pc := s.pc + 1#12
        trace := s.trace ++ [.step .sub a (.arithmetic (s.mem.read a.toNat)
          (BitVec.ofInt s.xlen ((s.acc.toNat : Int) - ((s.mem.read a.toNat).toNat : Int))))] }) ∧
    (s.memSize ≤ dataAddress a → exec (.sub a) s = .next { s with fault := 2#2 }) ∧
    (s.aboutTo (.sub a) → dataAddress a < s.memSize →
      step s = .next { s with
        cycleCount := s.cycleCount + 1#64
        acc := BitVec.ofInt s.xlen ((s.acc.toNat : Int) - ((s.mem.read a.toNat).toNat : Int))
        pc := s.pc + 1#12
        trace := s.trace ++ [.step .sub a (.arithmetic (s.mem.read a.toNat)
          (BitVec.ofInt s.xlen ((s.acc.toNat : Int) - ((s.mem.read a.toNat).toNat : Int))))] }) ∧
    (s.aboutTo (.sub a) → s.memSize ≤ dataAddress a →
      step s = .next { s with cycleCount := s.cycleCount + 1#64, fault := 2#2 })

/-- R130: JUMP continues at `target` if all bits of the accumulator are zero, else at the next index;
it never faults, and a taken jump at or past `PROG_LEN` leaves the machine Off the end. -/
def Obligations.JumpBranchesIfAccZero : Prop :=
  ∀ (t : Operand) (s : State),
    (encode (.jump t)).toNat = 0x4000 + t.toNat ∧
    exec (.jump t) s = .next { s with
      pc := if s.acc.toNat = 0 then t else s.pc + 1#12
      trace := s.trace ++ [.step .jump t (.jump (decide (s.acc.toNat = 0)))] } ∧
    (s.aboutTo (.jump t) →
      step s = .next { s with
        cycleCount := s.cycleCount + 1#64
        pc := if s.acc.toNat = 0 then t else s.pc + 1#12
        trace := s.trace ++ [.step .jump t (.jump (decide (s.acc.toNat = 0)))] }) ∧
    (s.aboutTo (.jump t) → s.acc.toNat = 0 → s.program.length ≤ t.toNat →
      ∃ u, step s = .next u ∧ u.condition = .offEnd ∧ u.pc = t)

/-- R132: NOP changes nothing but the common steps, whatever its operand. -/
def Obligations.NopOnlyAdvances : Prop :=
  ∀ (x : Operand) (s : State),
    (encode (.nop x)).toNat = 0x5000 + x.toNat ∧
    exec (.nop x) s = .next { s with
      pc := s.pc + 1#12, trace := s.trace ++ [.step .nop x .plain] } ∧
    (s.aboutTo (.nop x) →
      step s = .next { s with
        cycleCount := s.cycleCount + 1#64
        pc := s.pc + 1#12
        trace := s.trace ++ [.step .nop x .plain] })

/-- R133: HALT sets `halted`, whatever its operand; the increment of `pc` still happens, the machine is
then Halted and runs no further cycle, and `run` then emits the summary. The count of draws is the
model's own (log 8). -/
def Obligations.HaltSetsHaltedAndAdvances : Prop :=
  ∀ (x : Operand) (s : State),
    (encode (.halt x)).toNat = 0x6000 + x.toNat ∧
    exec (.halt x) s = .next { s with
      halted := true, pc := s.pc + 1#12, trace := s.trace ++ [.step .halt x .plain] } ∧
    (s.aboutTo (.halt x) →
      ∃ u, step s = .next u ∧ u.condition = .halted ∧ (∀ n, afterCycles n u = u) ∧
        u = { s with
          cycleCount := s.cycleCount + 1#64
          halted := true
          pc := s.pc + 1#12
          trace := s.trace ++ [.step .halt x .plain] } ∧
        ∀ n, ∃ e, run n u = some { u with
          elapsedTime := e
          elapsedDraws := u.elapsedDraws + 1
          trace := u.trace ++ [.summary u.cycleCount e u.acc u.pc
            ((List.range u.memSize).map (fun a => u.mem.read a))] })

/-! ## Frames -/

/-- What LOAD, ADD and SUB leave unchanged (41_load_store.md R110, 42_arithmetic.md R120, R121): all
but `acc`, `pc`, the trace, and `fault` where the address is out of range; then `acc` and `pc` too.
Every cell reads as before. `cycle_count` is unchanged because `exec` starts after step 1, the count
(log 11); the whole cycle does count (R92). -/
def Obligations.FrameOfLoadAddSub : Prop :=
  ∀ (a : Operand) (i : Instr) (s t : State), i = .load a ∨ i = .add a ∨ i = .sub a →
    exec i s = .next t →
      t.params = s.params ∧ t.halted = s.halted ∧ t.cycleCount = s.cycleCount ∧
      t.elapsedTime = s.elapsedTime ∧ t.elapsedDraws = s.elapsedDraws ∧
      (∀ b, t.cellValue b = s.cellValue b) ∧
      (dataAddress a < s.memSize → t.fault = s.fault) ∧
      (s.memSize ≤ dataAddress a → t.accValue = s.accValue ∧ t.pc = s.pc ∧
        t.trace.length = s.trace.length)

/-- What STORE leaves unchanged (R111): all but the one cell `dataAddress a`, `pc`, the trace, and
`fault` where the address is out of range; then every cell and `pc` too. `cycle_count` is unchanged
because `exec` starts after step 1, the count (log 11); the whole cycle does count (R92). -/
def Obligations.FrameOfStore : Prop :=
  ∀ (a : Operand) (s t : State), exec (.store a) s = .next t →
    t.params = s.params ∧ t.accValue = s.accValue ∧ t.halted = s.halted ∧
    t.cycleCount = s.cycleCount ∧ t.elapsedTime = s.elapsedTime ∧ t.elapsedDraws = s.elapsedDraws ∧
    (∀ b, b ≠ dataAddress a → t.cellValue b = s.cellValue b) ∧
    (dataAddress a < s.memSize → t.fault = s.fault) ∧
    (s.memSize ≤ dataAddress a → t.pc = s.pc ∧ t.trace.length = s.trace.length ∧
      ∀ b, t.cellValue b = s.cellValue b)

/-- What JUMP, NOP and HALT leave unchanged (43_control.md R130, R132, R133): all but `pc`, the trace,
and `halted` for HALT. They never fault. `cycle_count` is unchanged because `exec` starts after step 1,
the count (log 11); the whole cycle does count (R92). -/
def Obligations.FrameOfJumpNopHalt : Prop :=
  ∀ (x : Operand) (i : Instr) (s t : State), i = .jump x ∨ i = .nop x ∨ i = .halt x →
    exec i s = .next t →
      t.params = s.params ∧ t.accValue = s.accValue ∧ t.cycleCount = s.cycleCount ∧
      t.fault = s.fault ∧ t.elapsedTime = s.elapsedTime ∧ t.elapsedDraws = s.elapsedDraws ∧
      (∀ b, t.cellValue b = s.cellValue b) ∧ (i ≠ .halt x → t.halted = s.halted)

/-! ## The cycle -/

/-- A step of a runnable machine whose word at `pc` decodes to `i` is `exec` of `i` on the state with
`cycle_count` incremented (40_execution_cycle.md R91, R92). -/
def Obligations.StepRunsDecodedInstruction : Prop :=
  ∀ (s : State) (w : InstrWord) (i : Instr), s.Runnable → s.program[s.pc.toNat]? = some w →
    decodeWord w = .ok i → step s = exec i { s with cycleCount := s.cycleCount + 1#64 }

/-- R171, R77: executing a word with an opcode of 7 to 15 raises UnknownOpcode in that cycle, and the
machine is then Faulted and executes no further cycle. -/
def Obligations.UnknownOpcodeFaults : Prop :=
  ∀ (s : State) (w : InstrWord), s.Runnable → s.program[s.pc.toNat]? = some w →
    7 ≤ (opcodeOf w).toNat →
    step s = .next { s with cycleCount := s.cycleCount + 1#64, fault := 1#2 } ∧
      ∀ t, step s = .next t → t.condition = .faulted ∧ ∀ n, afterCycles n t = t

/-- R174, R177: a cycle after which `fault` is set has written nothing but `fault`, which holds the
code of UnknownOpcode or AddressOutOfRange, and the increment of `cycle_count`: no accumulator, cell,
`halted`, `pc` or event; the machine is Faulted and `run` ends, without an event. That this
`run` draws an `elapsed_time`, and the count of draws, are the model's (log 8). -/
def Obligations.RaiseWritesOnlyFault : Prop :=
  ∀ s t : State, s.Runnable → step s = .next t → t.fault ≠ 0#2 →
    t.condition = .faulted ∧ (∀ n, ∃ e, run n t =
      some { t with elapsedTime := e, elapsedDraws := t.elapsedDraws + 1 }) ∧
    ∃ w ∈ s.program[s.pc.toNat]?,
      (7 ≤ (opcodeOf w).toNat ∧ t = { s with cycleCount := s.cycleCount + 1#64, fault := 1#2 }) ∨
      ((opcodeOf w).toNat ≤ 3 ∧ s.memSize ≤ (operandOf w).toNat ∧
        t = { s with cycleCount := s.cycleCount + 1#64, fault := 2#2 })

/-- R99, R175: a machine that is not runnable executes no cycle. Halted and Off the end machines stay
as they are; a Faulted one has no next state. (That `step` then answers the unchanged state, or the
fault's name, is the model's choice: log 6, log 5, and log 15 for `fault = 3`.) -/
def Obligations.NotRunnableExecutesNoCycle : Prop :=
  ∀ s : State,
    (s.fault = 0#2 ∧ s.halted = true → step s = .next s) ∧
    (s.fault = 0#2 ∧ s.halted = false ∧ s.program.length ≤ s.pc.toNat → step s = .next s) ∧
    (s.fault = 1#2 → step s = .fault .unknownOpcode) ∧
    (s.fault = 2#2 → step s = .fault .addressOutOfRange) ∧
    (s.fault = 3#2 → step s = .fault .reservedCause)

/-- R59, R93, R31: a runnable machine always has a word to fetch and always completes its cycle with a
next state, and `cycle_count` is then one more modulo 2^64, also where the cycle raises. -/
def Obligations.RunnableCompletesAndCounts : Prop :=
  ∀ s : State, s.Runnable →
    (∃ w, s.program[s.pc.toNat]? = some w) ∧
    ∃ t, step s = .next t ∧ t.cycleCount.toNat = (s.cycleCount.toNat + 1) % 2 ^ 64

/-- R40: the four conditions are given by their predicates, exactly one holds, each condition but
Runnable is left by `reset` only (that `step` then answers a next state at all is log 6), HALT alone
leads to Halted, and `reset` leads to Runnable or, with an empty program, to Off the end. -/
def Obligations.MachineConditions : Prop :=
  ∀ s : State,
    (s.condition = .runnable ↔ s.fault = 0#2 ∧ s.halted = false ∧ s.pc.toNat < s.program.length) ∧
    (s.condition = .halted ↔ s.fault = 0#2 ∧ s.halted = true) ∧
    (s.condition = .offEnd ↔ s.fault = 0#2 ∧ s.halted = false ∧ s.program.length ≤ s.pc.toNat) ∧
    (s.condition = .faulted ↔ s.fault ≠ 0#2) ∧
    (∀ t, s.condition ≠ .runnable → step s = .next t → t.condition = s.condition) ∧
    (∀ t, s.condition = .runnable → step s = .next t →
      (t.condition = .halted ↔ ∃ x, s.aboutTo (.halt x))) ∧
    (hostReset s).condition = if s.program.length = 0 then .offEnd else .runnable

/-- R26: where `pc` is after a cycle, for every instruction and for a cycle that faults. -/
def Obligations.PcAfterCycle : Prop :=
  ∀ (s t : State) (i : Instr), s.aboutTo i → step s = .next t →
    (t.fault ≠ 0#2 → t.pc = s.pc) ∧
    (t.fault = 0#2 →
      ((∀ x, i ≠ .jump x) → t.pc = s.pc + 1#12) ∧
      (∀ x, i = .jump x → (s.acc.toNat = 0 → t.pc = x) ∧ (s.acc.toNat ≠ 0 → t.pc = s.pc + 1#12)))

/-- R27: with a program of at most 4095 words the increment of `pc` never wraps where it can be seen: a
completed cycle leaves `pc` one higher as a number, or at the target of a taken JUMP; and once `pc` is
not below `PROG_LEN` no step changes it (that such a step has a next state is log 6). -/
def Obligations.PcNeverWraps : Prop :=
  ∀ s t : State, s.program.length ≤ 4095 → step s = .next t →
    (s.Runnable → t.fault = 0#2 →
      t.pc.toNat = s.pc.toNat + 1 ∨ ∃ x, s.aboutTo (.jump x) ∧ s.acc.toNat = 0 ∧ t.pc = x) ∧
    (s.program.length ≤ s.pc.toNat → t.pc = s.pc)

/-- R28: `halted` is set by HALT and by nothing else, and no step clears it; `reset` does. -/
def Obligations.HaltedSetOnlyByHalt : Prop :=
  ∀ s t : State, step s = .next t →
    (t.halted = true ↔ s.halted = true ∨ ∃ x, s.aboutTo (.halt x)) ∧ (hostReset s).halted = false

/-- R23: only LOAD, ADD and SUB change the accumulator. -/
def Obligations.AccWrittenOnlyByLoadAddSub : Prop :=
  ∀ s t : State, step s = .next t → t.accValue ≠ s.accValue →
    ∃ a, dataAddress a < s.memSize ∧
      (s.aboutTo (.load a) ∨ s.aboutTo (.add a) ∨ s.aboutTo (.sub a))

/-- R35, 90_conflicts.md C3: only STORE changes a cell, and only the one it addresses. -/
def Obligations.CellsWrittenOnlyByStore : Prop :=
  ∀ (s t : State) (b : Nat), step s = .next t → t.cellValue b ≠ s.cellValue b →
    ∃ a, s.aboutTo (.store a) ∧ dataAddress a = b ∧ b < s.memSize

/-- R9, R36, R62, R201: nothing writes the program store or the other parameters: no step, no `run`,
no `reset`, no `preload`. -/
def Obligations.ProgramStoreIsReadOnly : Prop :=
  (∀ s t : State, step s = .next t → t.params = s.params) ∧
  (∀ (n : Nat) (s t : State), run n s = some t → t.params = s.params) ∧
  (∀ s : State, (hostReset s).params = s.params) ∧
  ∀ (s : State) (a : Nat) (v : BitVec s.xlen) (t : State),
    preload s a v = some t → t.params = s.params

/-! ## Invariants -/

/-- Every step keeps the invariant: the parameters in range, data memory canonical and inside
`MEM_SIZE`, and a recorded fault that names what is wrong with the word at `pc` (R51, R170, R174). The
canonical form is the model's (log 4). -/
def Obligations.StepKeepsInv : Prop := ∀ s t : State, s.Inv → step s = .next t → t.Inv

/-- The state after reset, every newly constructed machine and every launch state meet the invariant,
and `preload` and `reset`, which the host may do between any two runs, keep it (R38, R63, R151, R152,
R200). The program of the first is the model's choice (log 3), and so is the canonical form (log 4). -/
def Obligations.ResetAndConstructMeetInv : Prop :=
  State.reset.Inv ∧ (∀ p : Params, p.wellFormed = true → (construct p).Inv) ∧
  (∀ (p : Params) (m0 : Nat → BitVec p.xlen), p.wellFormed = true →
    (launch p m0).Inv ∧ ∀ a, (launch p m0).mem.read a = if a < p.memSize then m0 a else 0#p.xlen) ∧
  (∀ (s : State) (a : Nat) (v : BitVec s.xlen) (t : State),
    s.Inv → preload s a v = some t → t.Inv) ∧
  ∀ s : State, s.Inv → (hostReset s).Inv

/-- R137: from a state whose data values are all zero every step leaves them all zero, and every JUMP
that executes is taken; so any run from the state after construction that ends leaves them zero. -/
def Obligations.ZeroDataStaysZero : Prop :=
  (∀ s t : State, s.allZero → step s = .next t →
    t.allZero ∧ ∀ x, s.aboutTo (.jump x) → t.pc = x) ∧
  (∀ p : Params, (construct p).allZero) ∧
  ∀ (n : Nat) (p : Params) (v : State), run n (construct p) = some v → v.allZero

/-! ## Memory -/

/-- R55, R60: a read returns the most recent write to the cell, and a write changes only the addressed
cell. -/
def Obligations.ReadAfterWrite : Prop :=
  ∀ (w : Nat) (m : Memory w) (a b : Nat) (v : BitVec w),
    (m.write a v).read a = v ∧ (b ≠ a → (m.write a v).read b = m.read b)

/-- Canonical memories with the same cells are the same data, so storing the value a cell already holds
leaves memory unchanged (R111). The canonical form is the model's (log 4). -/
def Obligations.EqualCellsAreEqualMemory : Prop :=
  (∀ (w : Nat) (m m' : Memory w), m.wf → m'.wf → (∀ a, m.read a = m'.read a) → m = m') ∧
  ∀ (w : Nat) (m : Memory w) (a : Nat), m.wf → m.write a (m.read a) = m

/-! ## Laws across instructions -/

/-- R112: LOAD a then STORE b leaves `mem[b]` and `acc` equal to what `mem[a]` was, `a = b` included. -/
def Obligations.LoadStoreRoundTrip : Prop :=
  ∀ (a b : Operand) (s : State), dataAddress a < s.memSize → dataAddress b < s.memSize →
    ∃ t u, exec (.load a) s = .next t ∧ exec (.store b) t = .next u ∧
      u.cellValue b.toNat = s.cellValue a.toNat ∧ u.accValue = s.cellValue a.toNat

/-- R123: LOAD a, ADD b, SUB b leaves the accumulator equal to `mem[a]`, with or without overflow. -/
def Obligations.AddSubInverse : Prop :=
  ∀ (a b : Operand) (s : State), dataAddress a < s.memSize → dataAddress b < s.memSize →
    ∃ t u v, exec (.load a) s = .next t ∧ exec (.add b) t = .next u ∧ exec (.sub b) u = .next v ∧
      v.accValue = s.cellValue a.toNat

/-- R122: read as signed values, ADD and SUB give the exact sum and difference where it is in the
range of `XLEN` bits. -/
def Obligations.SignedArithmeticWithoutOverflow : Prop :=
  ∀ (a : Operand) (s : State), 1 ≤ s.xlen → dataAddress a < s.memSize →
    (-(2 ^ (s.xlen - 1) : Int) ≤ s.accInt + (s.mem.read a.toNat).toInt →
      s.accInt + (s.mem.read a.toNat).toInt < (2 ^ (s.xlen - 1) : Int) →
      ∃ t, exec (.add a) s = .next t ∧ t.accInt = s.accInt + (s.mem.read a.toNat).toInt) ∧
    (-(2 ^ (s.xlen - 1) : Int) ≤ s.accInt - (s.mem.read a.toNat).toInt →
      s.accInt - (s.mem.read a.toNat).toInt < (2 ^ (s.xlen - 1) : Int) →
      ∃ t, exec (.sub a) s = .next t ∧ t.accInt = s.accInt - (s.mem.read a.toNat).toInt)

/-- R135: LOAD of a cell that holds 0 followed by JUMP always continues at the target and leaves the
accumulator 0. -/
def Obligations.UnconditionalJumpIdiom : Prop :=
  ∀ (z t : Operand) (s : State), dataAddress z < s.memSize → s.cellValue z.toNat = 0 →
    ∃ u v, exec (.load z) s = .next u ∧ exec (.jump t) u = .next v ∧ v.pc = t ∧ v.accValue = 0

/-- R131, R101, R181: a JUMP to its own index with a zero accumulator repeats for ever: after any
number of cycles the machine is still runnable and differs from the first state in the count and in the
events of the taken jumps only; no fuel ends its run. -/
def Obligations.JumpToItselfHangs : Prop :=
  ∀ (s : State) (k : Nat), s.aboutTo (.jump s.pc) → s.acc.toNat = 0 →
    (afterCycles k s).condition = .runnable ∧
    afterCycles k s = { s with
      cycleCount := s.cycleCount + BitVec.ofNat 64 k
      trace := s.trace ++ List.replicate k (.step .jump s.pc (.jump true)) } ∧
    run k s = none

/-! ## The host's operations -/

/-- R38, R204: the state after reset has every piece of architectural state 0 and every cell 0; it is
Off the end since no program is loaded. `XLEN` = 32 and `MEM_SIZE` = 16 are the defaults of R7; the
empty program is the model's choice (log 3). -/
def Obligations.ResetState : Prop :=
  State.reset.accValue = 0 ∧ State.reset.pc = 0#12 ∧ State.reset.halted = false ∧
  State.reset.cycleCount = 0#64 ∧ State.reset.fault = 0#2 ∧ State.reset.elapsedTime = 0 ∧
  (∀ a, State.reset.cellValue a = 0) ∧ State.reset.condition = .offEnd ∧
  State.reset.xlen = 32 ∧ State.reset.memSize = 16

/-- R200, R201, R202: `reset` clears every piece of state and leaves the parameters, in any state; it
emits one reset notice; done twice it is as done once but for the second notice. -/
def Obligations.ResetRestores : Prop :=
  ∀ s : State,
    (hostReset s).acc = 0#s.xlen ∧ (hostReset s).pc = 0#12 ∧ (hostReset s).halted = false ∧
    (hostReset s).cycleCount = 0#64 ∧ (hostReset s).fault = 0 ∧ (hostReset s).elapsedTime = 0 ∧
    (∀ a, (hostReset s).mem.read a = 0#s.xlen) ∧ (hostReset s).params = s.params ∧
    (hostReset s).trace = s.trace ++ [.resetNotice] ∧
    hostReset (hostReset s) = { hostReset s with trace := s.trace ++ [.resetNotice, .resetNotice] }

/-- R205, R39: a `run` after `reset` ends in the same state and emits the same events as a `run` fresh
from construction with the same parameters, `elapsed_time` excepted. -/
def Obligations.ResetRunReproducesFreshRun : Prop :=
  ∀ (n : Nat) (s : State),
    (run n (hostReset s) = none ↔ run n (construct s.params) = none) ∧
    ∀ u v, run n (hostReset s) = some u → run n (construct s.params) = some v →
      ({ u.architectural with trace :=
          (u.trace.drop (hostReset s).trace.length).map TraceEvent.withoutElapsed } : State) =
        { v.architectural with trace := v.trace.map TraceEvent.withoutElapsed }

/-- R97, R159: a `run` that ends has executed cycles, each a step and one count, until the machine was
not runnable, with one event per cycle but for one that faults, and has then emitted the summary of that
state if and only if `fault = 0`. Conversely, where `k` cycles bring the machine to a state that is not
runnable, every `run` with fuel for them ends so. `elapsed_time` is some value, and the count of its
draws is the model's own (log 8). -/
def Obligations.RunEndsWithSummary : Prop :=
  (∀ (n : Nat) (s u : State), run n s = some u →
    ∃ (k : Nat) (t : State) (e : Nat), k ≤ n ∧ t = afterCycles k s ∧ t.condition ≠ .runnable ∧
      (∀ j < k, (afterCycles j s).condition = .runnable ∧
        step (afterCycles j s) = .next (afterCycles (j + 1) s)) ∧
      t.cycleCount = s.cycleCount + BitVec.ofNat 64 k ∧
      t.trace.length = s.trace.length + (if t.fault = 0#2 ∨ k = 0 then k else k - 1) ∧
      u = { t with
        elapsedTime := e
        elapsedDraws := t.elapsedDraws + 1
        trace := if t.fault = 0#2 then
            t.trace ++ [.summary t.cycleCount e t.acc t.pc
              ((List.range t.memSize).map (fun a => t.mem.read a))]
          else t.trace }) ∧
  ∀ (s : State) (k n : Nat), (∀ j < k, (afterCycles j s).condition = .runnable) →
    (afterCycles k s).condition ≠ .runnable → k ≤ n →
    ∃ e, run n s = some { afterCycles k s with
      elapsedTime := e
      elapsedDraws := (afterCycles k s).elapsedDraws + 1
      trace := if (afterCycles k s).fault = 0#2 then
          (afterCycles k s).trace ++ [.summary (afterCycles k s).cycleCount e (afterCycles k s).acc
            (afterCycles k s).pc
            ((List.range (afterCycles k s).memSize).map (fun a => (afterCycles k s).mem.read a))]
        else (afterCycles k s).trace }

/-- R99: `run` on a machine that is not runnable executes no cycle: it emits the summary of the
unchanged state if the machine is Halted or Off the end, and nothing if it is Faulted. An empty program
(R100) is the case of it with `PROG_LEN = 0`. The count of draws is the model's own (log 8). -/
def Obligations.RunOfStoppedMachine : Prop :=
  ∀ (n : Nat) (s : State), ¬ s.Runnable →
    ∃ e, run n s = some { s with
      elapsedTime := e
      elapsedDraws := s.elapsedDraws + 1
      trace := if s.fault = 0#2 then
          s.trace ++ [.summary s.cycleCount e s.acc s.pc
            ((List.range s.memSize).map (fun a => s.mem.read a))]
        else s.trace }

/-- R101, R102: the machine has no limit of its own; fuel only cuts a run off. A run that stays runnable
through cycle after cycle has no final state under any fuel used up by then. One that is no longer
runnable after `k` cycles has a final state under every fuel from `k` on, always the same, with the
architectural state the `k` cycles left. A run that ends under some fuel ends in the same state under
more. -/
def Obligations.RunIsLimitedByFuelOnly : Prop :=
  (∀ (s : State) (k : Nat), (∀ j < k, (afterCycles j s).condition = .runnable) →
    (∀ n < k, run n s = none) ∧
    ((afterCycles k s).condition ≠ .runnable →
      ∃ u, (∀ n, k ≤ n → run n s = some u) ∧
        u.architectural = (afterCycles k s).architectural)) ∧
  ∀ (n m : Nat) (s u : State), run n s = some u → n ≤ m → run m s = some u

/-- R203, R161: a `run` that `rst` stops after any number of cycles has emitted step events only, then
the reset notice, and no summary; the state is the reset state with the parameters kept. That `rst` acts
at a cycle boundary is log 10; that there is no summary also where the machine was no longer runnable at
the boundary is the model's choice (log 19). -/
def Obligations.RunStoppedByReset : Prop :=
  ∀ (k : Nat) (s : State),
    (runStoppedByReset k s).architectural = construct s.params ∧
    (runStoppedByReset k s).trace.getLast? = some .resetNotice ∧
    (((runStoppedByReset k s).trace.drop s.trace.length).dropLast).all TraceEvent.isStep = true

/-- R151, R63: `preload` sets one existing cell and nothing else, and has no move for a cell that does
not exist (log 18). -/
def Obligations.PreloadSetsOneCell : Prop :=
  ∀ (s : State) (a : Nat) (v : BitVec s.xlen),
    (a < s.memSize → preload s a v = some { s with mem := s.mem.write a v } ∧
      ∀ b, (s.mem.write a v).read b = if b = a then v else s.mem.read b) ∧
    (s.memSize ≤ a → preload s a v = none)

/-- R157, R34: no rule reads the trace or `elapsed_time`: two states that differ in nothing else step
to states that differ in nothing else, or both stop in the same way (the stop is log 5). -/
def Obligations.OutputsAreReadByNothing : Prop :=
  ∀ s s' : State, s.architectural = s'.architectural →
    (∀ t, step s = .next t → ∃ t', step s' = .next t' ∧ t.architectural = t'.architectural) ∧
    ∀ f, step s = .fault f → step s' = .fault f

/-! ## Ports -/

/-- R155, R158: a cycle is what the control table and the datapath make of the word, for every kind,
for the out-of-range forms and for the illegal opcodes; and it emits the step event of the word, none
where it faults. -/
def Obligations.ControlTableIsTheCycle : Prop :=
  ∀ (s : State) (w : InstrWord), s.Runnable → s.program[s.pc.toNat]? = some w →
    step s = .next (datapath s w)

/-- R154: the data-memory enables are asserted only in a clock in which a cycle executes, with `run` and
without `rst`, and only for an existing cell, `dmem_re` for LOAD, ADD and SUB and `dmem_we` for STORE, with
the operand on `dmem_addr` and the accumulator on `dmem_wdata`; `imem_addr` is `pc`; `done_o` is not
runnable, whatever `rst` and `run` are. A value without its enable is free (log 13). -/
def Obligations.DataPortEnables : Prop :=
  ∀ (s : State) (rst r : Bool),
    ((outputs rst r s).dmemWe = true ↔ rst = false ∧ r = true ∧
      ∃ a, s.aboutTo (.store a) ∧ dataAddress a < s.memSize) ∧
    ((outputs rst r s).dmemRe = true ↔ rst = false ∧ r = true ∧ ∃ a, dataAddress a < s.memSize ∧
      (s.aboutTo (.load a) ∨ s.aboutTo (.add a) ∨ s.aboutTo (.sub a))) ∧
    (∀ a, s.aboutTo (.store a) → (outputs false true s).dmemAddr = a) ∧
    ((outputs rst r s).dmemWe = true → (outputs rst r s).dmemWdata = s.acc) ∧
    (∀ a, s.aboutTo (.load a) ∨ s.aboutTo (.add a) ∨ s.aboutTo (.sub a) →
      (outputs false true s).dmemAddr = a ∧
        (dataAddress a < s.memSize → (outputs false true s).dmemRdata = s.mem.read a.toNat)) ∧
    (outputs rst r s).imemAddr = s.pc ∧ ((outputs rst r s).doneO = true ↔ ¬ s.Runnable)

/-- R162, R154: the trace bundle is one pulse per completed cycle with the fields of the kind: the
opcode value and the operand for every kind, the loaded, stored or operand value for LOAD, STORE, ADD and
SUB, the new accumulator for ADD and SUB, and whether it is taken for JUMP. There is a pulse exactly in a
clock that executes a cycle, with `run` and without `rst`, and the cycle does not fault. That the bundle
is given in the state before the cycle is log 13. -/
def Obligations.TraceBundleFields : Prop :=
  ∀ (s : State) (a : Operand),
    (s.aboutTo (.load a) → dataAddress a < s.memSize →
      (traceBundle false true s).valid = true ∧
        (traceBundle false true s).kind = 0#3 ∧ (traceBundle false true s).operand = a ∧
        (traceBundle false true s).value = s.mem.read a.toNat) ∧
    (s.aboutTo (.store a) → dataAddress a < s.memSize →
      (traceBundle false true s).valid = true ∧
        (traceBundle false true s).kind = 1#3 ∧ (traceBundle false true s).operand = a ∧
        (traceBundle false true s).value = s.acc) ∧
    (s.aboutTo (.add a) → dataAddress a < s.memSize →
      (traceBundle false true s).valid = true ∧
        (traceBundle false true s).kind = 2#3 ∧ (traceBundle false true s).operand = a ∧
        (traceBundle false true s).value = s.mem.read a.toNat ∧
        (traceBundle false true s).acc = s.acc + s.mem.read a.toNat) ∧
    (s.aboutTo (.sub a) → dataAddress a < s.memSize →
      (traceBundle false true s).valid = true ∧
        (traceBundle false true s).kind = 3#3 ∧ (traceBundle false true s).operand = a ∧
        (traceBundle false true s).value = s.mem.read a.toNat ∧
        (traceBundle false true s).acc = s.acc - s.mem.read a.toNat) ∧
    (s.aboutTo (.jump a) →
      (traceBundle false true s).valid = true ∧
        (traceBundle false true s).kind = 4#3 ∧ (traceBundle false true s).operand = a ∧
        (traceBundle false true s).taken = decide (s.acc.toNat = 0)) ∧
    (s.aboutTo (.nop a) →
      (traceBundle false true s).valid = true ∧
        (traceBundle false true s).kind = 5#3 ∧ (traceBundle false true s).operand = a) ∧
    (s.aboutTo (.halt a) →
      (traceBundle false true s).valid = true ∧
        (traceBundle false true s).kind = 6#3 ∧ (traceBundle false true s).operand = a) ∧
    (∀ rst r, (traceBundle rst r s).valid = true ↔
      rst = false ∧ r = true ∧ s.Runnable ∧ (clock rst r s).fault = 0#2) ∧
    ∀ t, s.Runnable → step s = .next t →
      ((traceBundle false true s).valid = false ↔ t.fault = 1#2 ∨ t.fault = 2#2)

/-- R154, R178, R202: `rst` performs `reset` and has priority over `run`; with `run` alone a runnable
machine executes a cycle; otherwise nothing changes. That `rst` acts between two cycles is log 10; that
each clock with `rst` is one `reset` with its own notice is the model's choice (log 20). -/
def Obligations.ClockPriority : Prop :=
  ∀ s : State,
    (∀ r, clock true r s = hostReset s) ∧
    (s.Runnable → step s = .next (clock false true s)) ∧
    (¬ s.Runnable → clock false true s = s) ∧ clock false false s = s

/-! ## The pipeline-mode walk -/

/-- R143, R144: one cycle of a walk is the cycle of R91 on its private machine. An instruction that
completes appends the line with its cycle number, kind and operand, HALT ends the walk without a report,
a fault ends it without a report, and the end of the program ends it with the report of the total
cycles and the final accumulator. That a cycle that faults has no line is the model's choice (log 14). -/
def Obligations.WalkCycleLinesAndEnds : Prop :=
  ∀ k : Walk, k.ended = none →
    (∀ i t, k.engine.aboutTo i → step k.engine = .next t → t.fault = 0#2 →
      (walkCycle k).engine = t ∧
      (walkCycle k).lines = k.lines ++ [⟨k.engine.cycleCount + 1#64, i.kind, i.operand⟩] ∧
      ((walkCycle k).ended = some .silent ↔ i.kind = .halt) ∧ reportOf (walkCycle k) = none) ∧
    (∀ t, k.engine.Runnable → step k.engine = .next t → t.fault ≠ 0#2 →
      (walkCycle k).lines = k.lines ∧ (walkCycle k).ended = some .faulted ∧
        reportOf (walkCycle k) = none) ∧
    (k.engine.condition = .offEnd →
      (walkCycle k).lines = k.lines ∧
        reportOf (walkCycle k) = some (k.engine.cycleCount, k.engine.accValue))

/-- R147: every walk computes only zeros, whatever the engine's state is. -/
def Obligations.WalkComputesZeros : Prop :=
  ∀ (n : Nat) (s : State), (walkCycles n (walkStart s)).engine.allZero

/-- R145: on a program without HALT, a `run` from the reset state that ends without a fault and the
walk report the same cycle count and the same final accumulator. -/
def Obligations.WalkAgreesWithRun : Prop :=
  ∀ (n : Nat) (p : Params) (v : State),
    (∀ w ∈ p.program, ∀ x, decodeWord w ≠ .ok (.halt x)) →
    run n (construct p) = some v → v.fault = 0#2 →
      reportOf (walkCycles (n + 1) (walkStart (construct p))) = some (v.cycleCount, v.accValue)
end

