-- ==== Sys2Proof/Laws/Decode.lean ====
section
/-!
SUPPORT. The fields of an encoded word, and which opcodes select a kind.
-/

namespace Sys2Proof

theorem opcodeOf_encode (i : Instr) : opcodeOf (encode i) = i.kind.opcode := by
  ext j hj
  simp only [opcodeOf, encode, BitVec.getElem_extractLsb', BitVec.getLsbD_cast,
    BitVec.getLsbD_append]
  rw [if_neg (by omega), show 12 + j - 12 = j by omega, BitVec.getLsbD_eq_getElem hj]

theorem operandOf_encode (i : Instr) : operandOf (encode i) = i.operand := by
  ext j hj
  simp only [operandOf, encode, BitVec.getElem_extractLsb', BitVec.getLsbD_cast,
    BitVec.getLsbD_append]
  rw [if_pos (by omega), show 0 + j = j by omega, BitVec.getLsbD_eq_getElem hj]

theorem kindOf_opcode (k : Kind) : kindOf k.opcode = some k := by cases k <;> rfl

/-- An opcode selects no kind exactly when it is 7 to 15 (30_encoding.md R77). -/
theorem kindOf_eq_none_iff (o : Opcode) : kindOf o = none ↔ 7 ≤ o.toNat := by
  revert o
  decide

@[simp] theorem withOperand_kind (k : Kind) (a : Operand) : (k.withOperand a).kind = k := by
  cases k <;> rfl

@[simp] theorem withOperand_operand (k : Kind) (a : Operand) : (k.withOperand a).operand = a := by
  cases k <;> rfl

@[simp] theorem kind_withOperand (i : Instr) : i.kind.withOperand i.operand = i := by
  cases i <;> rfl

/-- What a decoded word says: its opcode selects the instruction's kind, its low bits are the operand. -/
theorem decodeWord_ok {w : InstrWord} {i : Instr} (h : decodeWord w = .ok i) :
    kindOf (opcodeOf w) = some i.kind ∧ operandOf w = i.operand := by
  unfold decodeWord at h
  split at h
  · rename_i k hk
    cases h
    simp [hk]
  · cases h

/-- A word that does not decode has an illegal opcode. -/
theorem decodeWord_error {w : InstrWord} {e : DecodeError} (h : decodeWord w = .error e) :
    7 ≤ (opcodeOf w).toNat := by
  unfold decodeWord at h
  split at h
  · cases h
  · rename_i hk
    exact (kindOf_eq_none_iff _).1 hk

end Sys2Proof
end

