-- ==== Sys2Proof/Laws/State.lean ====
section
/-!
SUPPORT. One lemma per field of State per named update, each true by rfl, so that no proof unfolds a
record update.
-/

namespace Sys2Proof.Machine

/-! ## raise -/

@[simp] theorem raise_xlen (c : FaultCause) (s : State) :
    (raise c s).xlen = s.xlen := rfl

@[simp] theorem raise_memSize (c : FaultCause) (s : State) :
    (raise c s).memSize = s.memSize := rfl

@[simp] theorem raise_program (c : FaultCause) (s : State) :
    (raise c s).program = s.program := rfl

@[simp] theorem raise_acc (c : FaultCause) (s : State) :
    (raise c s).acc = s.acc := rfl

@[simp] theorem raise_pc (c : FaultCause) (s : State) :
    (raise c s).pc = s.pc := rfl

@[simp] theorem raise_halted (c : FaultCause) (s : State) :
    (raise c s).halted = s.halted := rfl

@[simp] theorem raise_cycleCount (c : FaultCause) (s : State) :
    (raise c s).cycleCount = s.cycleCount := rfl

@[simp] theorem raise_fault (c : FaultCause) (s : State) :
    (raise c s).fault = c.code := rfl

@[simp] theorem raise_mem (c : FaultCause) (s : State) :
    (raise c s).mem = s.mem := rfl

@[simp] theorem raise_elapsedTime (c : FaultCause) (s : State) :
    (raise c s).elapsedTime = s.elapsedTime := rfl

@[simp] theorem raise_elapsedDraws (c : FaultCause) (s : State) :
    (raise c s).elapsedDraws = s.elapsedDraws := rfl

@[simp] theorem raise_trace (c : FaultCause) (s : State) :
    (raise c s).trace = s.trace := rfl

/-! ## countCycle -/

@[simp] theorem countCycle_xlen (s : State) :
    (countCycle s).xlen = s.xlen := rfl

@[simp] theorem countCycle_memSize (s : State) :
    (countCycle s).memSize = s.memSize := rfl

@[simp] theorem countCycle_program (s : State) :
    (countCycle s).program = s.program := rfl

@[simp] theorem countCycle_acc (s : State) :
    (countCycle s).acc = s.acc := rfl

@[simp] theorem countCycle_pc (s : State) :
    (countCycle s).pc = s.pc := rfl

@[simp] theorem countCycle_halted (s : State) :
    (countCycle s).halted = s.halted := rfl

@[simp] theorem countCycle_cycleCount (s : State) :
    (countCycle s).cycleCount = s.cycleCount + 1#64 := rfl

@[simp] theorem countCycle_fault (s : State) :
    (countCycle s).fault = s.fault := rfl

@[simp] theorem countCycle_mem (s : State) :
    (countCycle s).mem = s.mem := rfl

@[simp] theorem countCycle_elapsedTime (s : State) :
    (countCycle s).elapsedTime = s.elapsedTime := rfl

@[simp] theorem countCycle_elapsedDraws (s : State) :
    (countCycle s).elapsedDraws = s.elapsedDraws := rfl

@[simp] theorem countCycle_trace (s : State) :
    (countCycle s).trace = s.trace := rfl

/-! ## advance -/

@[simp] theorem advance_xlen (s : State) :
    (advance s).xlen = s.xlen := rfl

@[simp] theorem advance_memSize (s : State) :
    (advance s).memSize = s.memSize := rfl

@[simp] theorem advance_program (s : State) :
    (advance s).program = s.program := rfl

@[simp] theorem advance_acc (s : State) :
    (advance s).acc = s.acc := rfl

@[simp] theorem advance_pc (s : State) :
    (advance s).pc = s.pc + 1#12 := rfl

@[simp] theorem advance_halted (s : State) :
    (advance s).halted = s.halted := rfl

@[simp] theorem advance_cycleCount (s : State) :
    (advance s).cycleCount = s.cycleCount := rfl

@[simp] theorem advance_fault (s : State) :
    (advance s).fault = s.fault := rfl

@[simp] theorem advance_mem (s : State) :
    (advance s).mem = s.mem := rfl

@[simp] theorem advance_elapsedTime (s : State) :
    (advance s).elapsedTime = s.elapsedTime := rfl

@[simp] theorem advance_elapsedDraws (s : State) :
    (advance s).elapsedDraws = s.elapsedDraws := rfl

@[simp] theorem advance_trace (s : State) :
    (advance s).trace = s.trace := rfl

/-! ## retire -/

@[simp] theorem retire_xlen (i : Instr) (s : State) (d : StepDetail s.xlen) :
    (retire i s d).xlen = s.xlen := rfl

@[simp] theorem retire_memSize (i : Instr) (s : State) (d : StepDetail s.xlen) :
    (retire i s d).memSize = s.memSize := rfl

@[simp] theorem retire_program (i : Instr) (s : State) (d : StepDetail s.xlen) :
    (retire i s d).program = s.program := rfl

@[simp] theorem retire_acc (i : Instr) (s : State) (d : StepDetail s.xlen) :
    (retire i s d).acc = s.acc := rfl

@[simp] theorem retire_pc (i : Instr) (s : State) (d : StepDetail s.xlen) :
    (retire i s d).pc = s.pc + 1#12 := rfl

@[simp] theorem retire_halted (i : Instr) (s : State) (d : StepDetail s.xlen) :
    (retire i s d).halted = s.halted := rfl

@[simp] theorem retire_cycleCount (i : Instr) (s : State) (d : StepDetail s.xlen) :
    (retire i s d).cycleCount = s.cycleCount := rfl

@[simp] theorem retire_fault (i : Instr) (s : State) (d : StepDetail s.xlen) :
    (retire i s d).fault = s.fault := rfl

@[simp] theorem retire_mem (i : Instr) (s : State) (d : StepDetail s.xlen) :
    (retire i s d).mem = s.mem := rfl

@[simp] theorem retire_elapsedTime (i : Instr) (s : State) (d : StepDetail s.xlen) :
    (retire i s d).elapsedTime = s.elapsedTime := rfl

@[simp] theorem retire_elapsedDraws (i : Instr) (s : State) (d : StepDetail s.xlen) :
    (retire i s d).elapsedDraws = s.elapsedDraws := rfl

@[simp] theorem retire_trace (i : Instr) (s : State) (d : StepDetail s.xlen) :
    (retire i s d).trace = s.trace ++ [.step i.kind i.operand d] := rfl

/-! ## loadWordAtPc -/

@[simp] theorem loadWordAtPc_xlen (s : State) (w : InstrWord) :
    (loadWordAtPc s w).xlen = s.xlen := rfl

@[simp] theorem loadWordAtPc_memSize (s : State) (w : InstrWord) :
    (loadWordAtPc s w).memSize = s.memSize := rfl

@[simp] theorem loadWordAtPc_program (s : State) (w : InstrWord) :
    (loadWordAtPc s w).program = placeWord s.program s.pc.toNat w := rfl

@[simp] theorem loadWordAtPc_acc (s : State) (w : InstrWord) :
    (loadWordAtPc s w).acc = s.acc := rfl

@[simp] theorem loadWordAtPc_pc (s : State) (w : InstrWord) :
    (loadWordAtPc s w).pc = s.pc := rfl

@[simp] theorem loadWordAtPc_halted (s : State) (w : InstrWord) :
    (loadWordAtPc s w).halted = false := rfl

@[simp] theorem loadWordAtPc_cycleCount (s : State) (w : InstrWord) :
    (loadWordAtPc s w).cycleCount = s.cycleCount := rfl

@[simp] theorem loadWordAtPc_fault (s : State) (w : InstrWord) :
    (loadWordAtPc s w).fault = 0#2 := rfl

@[simp] theorem loadWordAtPc_mem (s : State) (w : InstrWord) :
    (loadWordAtPc s w).mem = s.mem := rfl

@[simp] theorem loadWordAtPc_elapsedTime (s : State) (w : InstrWord) :
    (loadWordAtPc s w).elapsedTime = s.elapsedTime := rfl

@[simp] theorem loadWordAtPc_elapsedDraws (s : State) (w : InstrWord) :
    (loadWordAtPc s w).elapsedDraws = s.elapsedDraws := rfl

@[simp] theorem loadWordAtPc_trace (s : State) (w : InstrWord) :
    (loadWordAtPc s w).trace = s.trace := rfl

/-! ## hostReset -/

@[simp] theorem hostReset_xlen (s : State) :
    (hostReset s).xlen = s.xlen := rfl

@[simp] theorem hostReset_memSize (s : State) :
    (hostReset s).memSize = s.memSize := rfl

@[simp] theorem hostReset_program (s : State) :
    (hostReset s).program = s.program := rfl

@[simp] theorem hostReset_acc (s : State) :
    (hostReset s).acc = 0#s.xlen := rfl

@[simp] theorem hostReset_pc (s : State) :
    (hostReset s).pc = 0#12 := rfl

@[simp] theorem hostReset_halted (s : State) :
    (hostReset s).halted = false := rfl

@[simp] theorem hostReset_cycleCount (s : State) :
    (hostReset s).cycleCount = 0#64 := rfl

@[simp] theorem hostReset_fault (s : State) :
    (hostReset s).fault = 0#2 := rfl

@[simp] theorem hostReset_mem (s : State) :
    (hostReset s).mem = [] := rfl

@[simp] theorem hostReset_elapsedTime (s : State) :
    (hostReset s).elapsedTime = 0 := rfl

@[simp] theorem hostReset_elapsedDraws (s : State) :
    (hostReset s).elapsedDraws = s.elapsedDraws := rfl

@[simp] theorem hostReset_trace (s : State) :
    (hostReset s).trace = s.trace ++ [.resetNotice] := rfl

/-! ## drawElapsed -/

@[simp] theorem drawElapsed_xlen (s : State) :
    (drawElapsed s).xlen = s.xlen := rfl

@[simp] theorem drawElapsed_memSize (s : State) :
    (drawElapsed s).memSize = s.memSize := rfl

@[simp] theorem drawElapsed_program (s : State) :
    (drawElapsed s).program = s.program := rfl

@[simp] theorem drawElapsed_acc (s : State) :
    (drawElapsed s).acc = s.acc := rfl

@[simp] theorem drawElapsed_pc (s : State) :
    (drawElapsed s).pc = s.pc := rfl

@[simp] theorem drawElapsed_halted (s : State) :
    (drawElapsed s).halted = s.halted := rfl

@[simp] theorem drawElapsed_cycleCount (s : State) :
    (drawElapsed s).cycleCount = s.cycleCount := rfl

@[simp] theorem drawElapsed_fault (s : State) :
    (drawElapsed s).fault = s.fault := rfl

@[simp] theorem drawElapsed_mem (s : State) :
    (drawElapsed s).mem = s.mem := rfl

@[simp] theorem drawElapsed_elapsedTime (s : State) :
    (drawElapsed s).elapsedTime = Config.elapsedTime s.elapsedDraws := rfl

@[simp] theorem drawElapsed_elapsedDraws (s : State) :
    (drawElapsed s).elapsedDraws = s.elapsedDraws + 1 := rfl

@[simp] theorem drawElapsed_trace (s : State) :
    (drawElapsed s).trace = s.trace := rfl

end Sys2Proof.Machine
end

