-- ==== Sys2Proof/Laws/Ops.lean ====
section
/-!
SUPPORT. For each shared operation one lemma that says everything it can do.
-/

namespace Sys2Proof.Machine

/-- `MemRead` gives the cell of an existing address and raises for any other (20_memory.md R57). -/
theorem memRead_cases (s : State) (a : Nat) :
    (a < s.memSize ∧ memRead s a = .ok (s.mem.read a)) ∨
      (s.memSize ≤ a ∧ memRead s a = .error .addressOutOfRange) := by
  unfold memRead
  split
  · exact Or.inl ⟨‹_›, rfl⟩
  · exact Or.inr ⟨by omega, rfl⟩

/-- `MemWrite` writes the cell of an existing address and raises for any other (R57). -/
theorem memWrite_cases (s : State) (a : Nat) (v : BitVec s.xlen) :
    (a < s.memSize ∧ memWrite s a v = .ok { s with mem := s.mem.write a v }) ∨
      (s.memSize ≤ a ∧ memWrite s a v = .error .addressOutOfRange) := by
  unfold memWrite
  split
  · exact Or.inl ⟨‹_›, rfl⟩
  · exact Or.inr ⟨by omega, rfl⟩

/-- What LOAD can do. -/
theorem execLoad_cases (a : Operand) (s : State) :
    (dataAddress a < s.memSize ∧ execLoad a s = .next (retire (.load a)
        { s with acc := s.mem.read (dataAddress a) }
        (.loaded (s.mem.read (dataAddress a)) (dataAddress a)))) ∨
      (s.memSize ≤ dataAddress a ∧ execLoad a s = .next (raise .addressOutOfRange s)) := by
  unfold execLoad
  rcases memRead_cases s (dataAddress a) with ⟨h, e⟩ | ⟨h, e⟩
  · exact Or.inl ⟨h, by rw [e]⟩
  · exact Or.inr ⟨h, by rw [e]⟩

/-- What STORE can do. -/
theorem execStore_cases (a : Operand) (s : State) :
    (dataAddress a < s.memSize ∧ execStore a s = .next (retire (.store a)
        { s with mem := s.mem.write (dataAddress a) s.acc } (.stored s.acc (dataAddress a)))) ∨
      (s.memSize ≤ dataAddress a ∧ execStore a s = .next (raise .addressOutOfRange s)) := by
  unfold execStore
  rcases memWrite_cases s (dataAddress a) s.acc with ⟨h, e⟩ | ⟨h, e⟩
  · exact Or.inl ⟨h, by rw [e]⟩
  · exact Or.inr ⟨h, by rw [e]⟩

/-- What ADD and SUB share. -/
theorem execAlu_cases (i : Instr) (f : (w : Nat) → BitVec w → BitVec w → BitVec w) (a : Operand)
    (s : State) :
    (dataAddress a < s.memSize ∧ execAlu i f a s = .next (retire i
        { s with acc := f s.xlen s.acc (s.mem.read (dataAddress a)) }
        (.arithmetic (s.mem.read (dataAddress a))
          (f s.xlen s.acc (s.mem.read (dataAddress a)))))) ∨
      (s.memSize ≤ dataAddress a ∧ execAlu i f a s = .next (raise .addressOutOfRange s)) := by
  unfold execAlu
  rcases memRead_cases s (dataAddress a) with ⟨h, e⟩ | ⟨h, e⟩
  · exact Or.inl ⟨h, by rw [e]⟩
  · exact Or.inr ⟨h, by rw [e]⟩

/-- What JUMP can do. -/
theorem execJump_cases (t : Operand) (s : State) :
    (s.acc = 0#s.xlen ∧ execJump t s =
        .next (retire (.jump t) { s with pc := jumpIntermediate t } (.jump true))) ∨
      (s.acc ≠ 0#s.xlen ∧ execJump t s = .next (retire (.jump t) s (.jump false))) := by
  unfold execJump accIsZero
  by_cases h : s.acc = 0#s.xlen
  · exact Or.inl ⟨h, if_pos (beq_iff_eq.2 h)⟩
  · exact Or.inr ⟨h, if_neg (fun hb => h (beq_iff_eq.1 hb))⟩

/-- Every meaning answers a next state: no instruction stops the machine or is refused. -/
theorem exec_next (i : Instr) (s : State) : ∃ t, exec i s = .next t := by
  cases i with
  | load a => rcases execLoad_cases a s with ⟨-, e⟩ | ⟨-, e⟩ <;> exact ⟨_, e⟩
  | store a => rcases execStore_cases a s with ⟨-, e⟩ | ⟨-, e⟩ <;> exact ⟨_, e⟩
  | add a => rcases execAlu_cases (.add a) (fun _ x y => x + y) a s with ⟨-, e⟩ | ⟨-, e⟩ <;> exact ⟨_, e⟩
  | sub a => rcases execAlu_cases (.sub a) (fun _ x y => x - y) a s with ⟨-, e⟩ | ⟨-, e⟩ <;> exact ⟨_, e⟩
  | jump t => rcases execJump_cases t s with ⟨-, e⟩ | ⟨-, e⟩ <;> exact ⟨_, e⟩
  | nop x => exact ⟨_, rfl⟩
  | halt x => exact ⟨_, rfl⟩

/-- A word placed at an index is fetched from it. -/
theorem placeWord_get (p : List InstrWord) (n : Nat) (w : InstrWord) :
    (placeWord p n w)[n]? = some w := by
  induction n generalizing p with
  | zero => cases p <;> rfl
  | succ n ih => cases p <;> simp [placeWord, ih]

end Sys2Proof.Machine
end

