-- ==== Sys2Proof/Laws/Step.lean ====
section
/-!
SUPPORT. What a cycle and a step can do, said once.
-/

namespace Sys2Proof.Machine

/-- The condition Runnable is the loop predicate (40_execution_cycle.md R90). -/
theorem condition_eq_runnable_iff (s : State) : s.condition = .runnable ↔ s.Runnable := by
  unfold State.condition State.Runnable
  by_cases hf : s.fault = 0#2 <;> by_cases hh : s.halted = true <;>
    by_cases hp : s.pc.toNat < s.program.length <;> simp [hf, hh, hp]

/-- A cycle always answers a next state. -/
theorem cycle_next (s : State) : ∃ t, cycle s = .next t := by
  unfold cycle
  split
  · exact ⟨_, rfl⟩
  · split
    · exact ⟨_, rfl⟩
    · exact exec_next _ _

/-- What a step that answers a next state can have been: nothing, because the machine is Halted or Off
the end; a raise of UnknownOpcode; or the decoded instruction, after the count. -/
theorem step_cases {s t : State} (h : step s = .next t) :
    (¬ s.Runnable ∧ s.fault = 0#2 ∧ t = s) ∨
      (s.Runnable ∧ ∃ w, fetch s = some w ∧
        ((∃ e, decodeWord w = .error e ∧ t = raise .unknownOpcode (countCycle s)) ∨
          ∃ i, decodeWord w = .ok i ∧ exec i (countCycle s) = .next t)) := by
  unfold step stepOnce at h
  split at h
  · rename_i hc
    have hr := (condition_eq_runnable_iff s).1 hc
    have hget : fetch s = some (s.program[s.pc.toNat]'hr.2.2) := List.getElem?_eq_getElem hr.2.2
    refine Or.inr ⟨hr, _, hget, ?_⟩
    unfold cycle at h
    rw [hget] at h
    split at h
    · rename_i hn
      cases hn
    · rename_i w hw
      cases hw
      split at h
      · rename_i e he
        cases h
        exact Or.inl ⟨e, he, rfl⟩
      · rename_i i hi
        exact Or.inr ⟨i, hi, h⟩
  · rename_i hc
    cases h
    refine Or.inl ⟨fun hr => ?_, ?_, rfl⟩
    · rw [(condition_eq_runnable_iff s).2 hr] at hc
      cases hc
    · by_contra hf
      simp [State.condition, hf] at hc
  · rename_i hc
    cases h
    refine Or.inl ⟨fun hr => ?_, ?_, rfl⟩
    · rw [(condition_eq_runnable_iff s).2 hr] at hc
      cases hc
    · by_contra hf
      simp [State.condition, hf] at hc
  · cases h

/-- A runnable machine whose word decodes to `i` is about to execute `i`. -/
theorem State.aboutTo_of_word {s : State} {w : InstrWord} {i : Instr} (hr : s.Runnable)
    (hw : fetch s = some w) (hi : decodeWord w = .ok i) : s.aboutTo i := ⟨hr, w, hw, hi⟩

end Sys2Proof.Machine
end

