-- ==== Sys2Proof/Laws/HostOps.lean ====
section
/-!
SUPPORT. What `run`, the iterated cycle and the placing of a word do, said once.
-/

namespace Sys2Proof.Machine

/-- Where the machine is runnable, a step is a cycle. -/
theorem step_of_runnable {s : State} (h : s.condition = .runnable) : step s = cycle s := by
  unfold step stepOnce
  rw [h]

/-- `run` on a machine that is not runnable only ends. -/
theorem run_of_stopped (n : Nat) {s : State} (h : s.condition ≠ .runnable) :
    run n s = some (endRun s) := by
  cases n <;> (unfold run; rw [if_neg h])

/-- `run` on a runnable machine executes one cycle and goes on, with one fuel less. -/
theorem run_of_runnable (n : Nat) {s t : State} (h : s.condition = .runnable)
    (hs : cycle s = .next t) : run (n + 1) s = run n t := by
  conv_lhs => unfold run
  rw [if_pos h, hs]

/-- The iterated cycle stays on a machine that is not runnable. -/
theorem afterCycles_of_stopped (k : Nat) {s : State} (h : s.condition ≠ .runnable) :
    afterCycles k s = s := by
  cases k with
  | zero => rfl
  | succ k => unfold afterCycles; rw [if_neg h]

/-- The iterated cycle on a runnable machine. -/
theorem afterCycles_of_runnable (k : Nat) {s t : State} (h : s.condition = .runnable)
    (hs : cycle s = .next t) : afterCycles (k + 1) s = afterCycles k t := by
  conv_lhs => unfold afterCycles
  rw [if_pos h, hs]

/-- The end of a `run` with `fault = 0` emits the summary. -/
theorem endRun_of_safe {s : State} (h : s.fault = 0#2) : endRun s = { drawElapsed s with
    trace := (drawElapsed s).trace ++ [summaryOf (drawElapsed s)] } := if_pos h

/-- The end of a `run` of a Faulted machine emits nothing (60_exceptions.md R176). -/
theorem endRun_of_faulted {s : State} (h : s.fault ≠ 0#2) : endRun s = drawElapsed s := if_neg h

/-- The placed word is fetched and the machine is runnable. -/
theorem loadWordAtPc_runnable (s : State) (w : InstrWord) :
    (loadWordAtPc s w).Runnable ∧ fetch (loadWordAtPc s w) = some w := by
  have hget : fetch (loadWordAtPc s w) = some w := placeWord_get s.program s.pc.toNat w
  refine ⟨⟨rfl, rfl, ?_⟩, hget⟩
  by_contra hp
  unfold fetch at hget
  rw [List.getElem?_eq_none (by omega)] at hget
  cases hget

/-- The very next step after placing a word runs the instruction it decodes to. -/
theorem step_withFetchWord (s : State) (nbits w : Nat) (i : Instr)
    (h : decodeWord (BitVec.ofNat 16 (w % 2 ^ nbits)) = .ok i) :
    step (s.withFetchWord nbits w) = exec i (countCycle (s.withFetchWord nbits w)) := by
  obtain ⟨hr, hf⟩ := loadWordAtPc_runnable s (BitVec.ofNat 16 (w % 2 ^ nbits))
  unfold State.withFetchWord
  rw [step_of_runnable ((condition_eq_runnable_iff _).2 hr)]
  unfold cycle
  rw [hf]
  simp only [h]

end Sys2Proof.Machine
end

