-- ==== Sys2Proof/Laws/Memory.lean ====
section
/-!
SUPPORT. The laws of the memory operations: what each does to one cell, and that each keeps the
canonical form and stays below `MEM_SIZE`.
-/

namespace Sys2Proof.Machine

variable {w : Nat}

@[simp] theorem Memory.read_nil (a : Nat) : Memory.read ([] : Memory w) a = 0#w := rfl

theorem Memory.read_cons (b : Nat) (v : BitVec w) (m : Memory w) (a : Nat) :
    Memory.read ((b, v) :: m) a = if b = a then v else m.read a := rfl

theorem Memory.read_clear (m : Memory w) (a b : Nat) :
    (m.clear a).read b = if b = a then 0#w else m.read b := by
  induction m with
  | nil => simp [Memory.clear]
  | cons c m ih =>
    obtain ⟨x, v⟩ := c
    simp only [Memory.clear, Memory.read_cons]
    split
    · rename_i hx
      subst hx
      rw [ih]
      by_cases hb : b = x
      · simp [hb]
      · simp [hb, Ne.symm hb]
    · rename_i hx
      rw [Memory.read_cons, ih]
      by_cases hb : b = a
      · subst hb
        simp [hx]
      · simp [hb]

theorem Memory.read_insert_self (m : Memory w) (a : Nat) (v : BitVec w)
    (h : ∀ c ∈ m, c.1 ≠ a) : (m.insert a v).read a = v := by
  induction m with
  | nil => simp [Memory.insert, Memory.read_cons]
  | cons c m ih =>
    obtain ⟨x, u⟩ := c
    simp only [Memory.insert]
    split
    · simp [Memory.read_cons]
    · have hx : x ≠ a := h (x, u) (List.mem_cons_self ..)
      rw [Memory.read_cons, if_neg hx]
      exact ih (fun c hc => h c (List.mem_cons_of_mem _ hc))

theorem Memory.read_insert_other (m : Memory w) (a b : Nat) (v : BitVec w) (h : b ≠ a) :
    (m.insert a v).read b = m.read b := by
  induction m with
  | nil => simp [Memory.insert, Memory.read_cons, Ne.symm h]
  | cons c m ih =>
    obtain ⟨x, u⟩ := c
    simp only [Memory.insert]
    split
    · simp [Memory.read_cons, Ne.symm h]
    · simp [Memory.read_cons, ih]

/-- The entries after a clear: those of the memory at other addresses. -/
theorem Memory.mem_clear {m : Memory w} {a : Nat} {c : Nat × BitVec w} :
    c ∈ m.clear a ↔ c ∈ m ∧ c.1 ≠ a := by
  induction m with
  | nil => simp [Memory.clear]
  | cons d m ih =>
    obtain ⟨x, u⟩ := d
    simp only [Memory.clear]
    split
    · rename_i hx
      rw [ih]
      constructor
      · exact fun h => ⟨List.mem_cons_of_mem _ h.1, h.2⟩
      · rintro ⟨h, hc⟩
        rcases List.mem_cons.1 h with rfl | h
        · exact absurd hx hc
        · exact ⟨h, hc⟩
    · rename_i hx
      rw [List.mem_cons, ih, List.mem_cons]
      constructor
      · rintro (rfl | ⟨h, hc⟩)
        · exact ⟨Or.inl rfl, hx⟩
        · exact ⟨Or.inr h, hc⟩
      · rintro ⟨rfl | h, hc⟩
        · exact Or.inl rfl
        · exact Or.inr ⟨h, hc⟩

/-- The entries after an insertion: the new one and those of the memory. -/
theorem Memory.mem_insert {m : Memory w} {a : Nat} {v : BitVec w} {c : Nat × BitVec w} :
    c ∈ m.insert a v ↔ c = (a, v) ∨ c ∈ m := by
  induction m with
  | nil => simp [Memory.insert]
  | cons d m ih =>
    obtain ⟨x, u⟩ := d
    simp only [Memory.insert]
    split
    · simp [List.mem_cons]
    · rw [List.mem_cons, ih, List.mem_cons]
      tauto

/-- Every entry a write leaves is the written one or an old one at another address. -/
theorem Memory.mem_write {m : Memory w} {a : Nat} {v : BitVec w} {c : Nat × BitVec w} :
    c ∈ m.write a v ↔ (c = (a, v) ∧ v ≠ 0#w) ∨ (c ∈ m ∧ c.1 ≠ a) := by
  unfold Memory.write
  split
  · rename_i hv
    simp [Memory.mem_clear, hv]
  · rename_i hv
    rw [Memory.mem_insert, Memory.mem_clear]
    exact or_congr_left (iff_self_and.2 fun _ => hv)

theorem Memory.clear_sublist (m : Memory w) (a : Nat) : List.Sublist (m.clear a) m := by
  induction m with
  | nil => exact List.Sublist.refl _
  | cons c m ih =>
    obtain ⟨x, u⟩ := c
    simp only [Memory.clear]
    split
    · exact ih.cons _
    · exact ih.cons_cons _

theorem Memory.insert_rising {m : Memory w} {a : Nat} {v : BitVec w}
    (hm : m.Pairwise (fun x y => x.1 < y.1)) (ha : ∀ c ∈ m, c.1 ≠ a) :
    (m.insert a v).Pairwise (fun x y => x.1 < y.1) := by
  induction m with
  | nil => simp [Memory.insert]
  | cons c m ih =>
    obtain ⟨x, u⟩ := c
    have hx : x ≠ a := ha (x, u) (List.mem_cons_self ..)
    rw [List.pairwise_cons] at hm
    simp only [Memory.insert]
    split
    · rename_i hlt
      refine List.Pairwise.cons ?_ (List.pairwise_cons.2 hm)
      intro c hc
      rcases List.mem_cons.1 hc with rfl | hc
      · exact hlt
      · exact lt_trans hlt (hm.1 c hc)
    · rename_i hge
      refine List.Pairwise.cons ?_ (ih hm.2 (fun c hc => ha c (List.mem_cons_of_mem _ hc)))
      intro c hc
      rcases Memory.mem_insert.1 hc with rfl | hc
      · have : x < a := by omega
        exact this
      · exact hm.1 c hc

/-- A write keeps the canonical form. -/
theorem Memory.write_wf {m : Memory w} (a : Nat) (v : BitVec w) (h : m.wf) : (m.write a v).wf := by
  refine ⟨?_, ?_⟩
  · unfold Memory.write
    split
    · exact h.1.sublist (m.clear_sublist a)
    · exact Memory.insert_rising (h.1.sublist (m.clear_sublist a))
        (fun c hc => (Memory.mem_clear.1 hc).2)
  · intro c hc
    rcases Memory.mem_write.1 hc with ⟨rfl, hv⟩ | ⟨hc, -⟩
    · exact hv
    · exact h.2 c hc

/-- A write to an existing cell stays below the memory's size. -/
theorem Memory.write_below {m : Memory w} {a n : Nat} (v : BitVec w) (h : m.below n) (ha : a < n) :
    (m.write a v).below n := by
  intro c hc
  rcases Memory.mem_write.1 hc with ⟨rfl, -⟩ | ⟨hc, -⟩
  · exact ha
  · exact h c hc

/-- The launch memory is canonical (20_memory.md R63). -/
theorem Memory.ofCells_wf (m0 : Nat → BitVec w) (n : Nat) : (Memory.ofCells m0 n).wf := by
  induction n with
  | zero => exact ⟨List.Pairwise.nil, fun _ h => nomatch h⟩
  | succ n ih => exact Memory.write_wf n (m0 n) ih

/-- The launch memory lists only cells that exist. -/
theorem Memory.ofCells_below (m0 : Nat → BitVec w) (n : Nat) : (Memory.ofCells m0 n).below n := by
  induction n with
  | zero => exact fun _ h => nomatch h
  | succ n ih =>
    exact Memory.write_below (m0 n) (fun c hc => lt_trans (ih c hc) (Nat.lt_succ_self n))
      (Nat.lt_succ_self n)

/-- The memory of the reset state is canonical. -/
theorem State.reset_mem_wf : State.reset.mem.wf := by decide

end Sys2Proof.Machine
end

