-- ==== Sys2Proof/Laws/PerInstr.lean ====
section
/-!
SUPPORT. Statements for all instructions, one lemma per constructor. `EncodedFields`: the word of an
instruction has a legal opcode in bits 15:12 and the operand, unchanged, in bits 11:0 (30_encoding.md
R73, R75).
-/

namespace Sys2Proof.Laws.EncodedFields

/-- The two fields of an instruction's word. -/
def Statement (i : Instr) : Prop :=
  opcodeOf (encode i) = i.kind.opcode ∧ (opcodeOf (encode i)).toNat < 7 ∧
    operandOf (encode i) = i.operand

/-- Every kind's opcode is below 7, so the fields of any instruction are as stated. -/
theorem of_kind (i : Instr) : Statement i := by
  refine ⟨opcodeOf_encode i, ?_, operandOf_encode i⟩
  rw [opcodeOf_encode]
  cases i.kind <;> decide

theorem load (a : Operand) : Statement (.load a) := of_kind _
theorem store (a : Operand) : Statement (.store a) := of_kind _
theorem add (a : Operand) : Statement (.add a) := of_kind _
theorem sub (a : Operand) : Statement (.sub a) := of_kind _
theorem jump (t : Operand) : Statement (.jump t) := of_kind _
theorem nop (x : Operand) : Statement (.nop x) := of_kind _
theorem halt (x : Operand) : Statement (.halt x) := of_kind _

end Sys2Proof.Laws.EncodedFields
end

