-- ==== Sys2Proof/Laws/Ports.lean ====
section
/-!
SUPPORT. Which word executes under `rst` and `run`, said once.
-/

namespace Sys2Proof.Machine

/-- With `run` and without `rst` the word that executes is the sampled one. -/
@[simp] theorem currentWord_run (s : State) : currentWord false true s = imemData s := rfl

/-- Under `rst` no word executes, whatever `run` is. -/
@[simp] theorem currentWord_rst (r : Bool) (s : State) : currentWord true r s = none := rfl

/-- Without `run` no word executes. -/
@[simp] theorem currentWord_idle (rst : Bool) (s : State) : currentWord rst false s = none := by
  cases rst <;> rfl

/-- A runnable machine samples the word at `pc`. -/
theorem imemData_of_runnable {s : State} (h : s.Runnable) : imemData s = fetch s :=
  if_pos ((condition_eq_runnable_iff s).2 h)

/-- A machine that is not runnable samples no word. -/
theorem imemData_of_stopped {s : State} (h : ¬ s.Runnable) : imemData s = none :=
  if_neg (mt (condition_eq_runnable_iff s).1 h)

end Sys2Proof.Machine
end

