-- ==== Sys2Proof/Tests/Slice0.lean ====
section
/-!
SUPPORT. Tests. The expected results are those of spec/95_test_vectors.md, named by their identifiers
there (E1, LS1, P4, ...), or are worked out by hand from the rule named. Each test is about one step on a
small state. The witnesses at the end show that the hypotheses of each statement of
Certificates/Slice0/Obligations.lean can be met, at the values where its clauses meet.
-/

namespace Sys2Proof.Tests

open Sys2Proof Sys2Proof.Machine

/-! ## Helpers -/

/-- A machine with `XLEN` = 32 and `MEM_SIZE` = 16. -/
def cpu (program : List InstrWord) (pc : PcWord) (acc : BitVec 32) (count : Count)
    (mem : Memory 32) : State where
  xlen := 32
  memSize := 16
  program := program
  acc := acc
  pc := pc
  halted := false
  cycleCount := count
  fault := 0#2
  mem := mem
  elapsedTime := 0
  elapsedDraws := 0
  trace := []

/-- A program with `w` between NOPs. -/
def amid (before : Nat) (w : InstrWord) (after : Nat) : List InstrWord :=
  List.replicate before 0x5000 ++ w :: List.replicate after 0x5000

/-- `acc`, `pc`, `cycle_count`, `halted` and `fault` after a step with a next state. -/
def view : Host.Outcome State Fault Refusal → Option (Nat × Nat × Nat × Bool × Nat)
  | .next t => some (t.accValue, t.pc.toNat, t.cycleCount.toNat, t.halted, t.fault.toNat)
  | .fault _ => none
  | .refused _ => none

/-- The listed cells after a step with a next state. -/
def cells : Host.Outcome State Fault Refusal → Option (List (Nat × Nat))
  | .next t => some (t.mem.map (fun c => (c.1, c.2.toNat)))
  | .fault _ => none
  | .refused _ => none

/-- An event as numbers: the opcode of the kind, the operand, and the detail fields in the order of
45_interfaces_and_trace.md R158. -/
def eventView {w : Nat} : TraceEvent w → List Nat
  | .step k x (.loaded v a) => [k.opcode.toNat, x.toNat, v.toNat, a]
  | .step k x (.stored v a) => [k.opcode.toNat, x.toNat, v.toNat, a]
  | .step k x (.arithmetic m a) => [k.opcode.toNat, x.toNat, m.toNat, a.toNat]
  | .step k x (.jump t) => [k.opcode.toNat, x.toNat, t.toNat]
  | .step k x .plain => [k.opcode.toNat, x.toNat]
  | .summary c _ a p m => [100, c.toNat, a.toNat, p.toNat] ++ m.map BitVec.toNat
  | .resetNotice => [101]

/-- The events after a step with a next state. -/
def events : Host.Outcome State Fault Refusal → Option (List (List Nat))
  | .next t => some (t.trace.map eventView)
  | .fault _ => none
  | .refused _ => none

/-! ## Well-formedness: each check refuses an ill-formed term (30_encoding.md R74, 00_scope.md R7) -/

theorem test_negative_operand_refused :
    (AbstractInstr.mk .add (-1)).wellFormed = false ∧ (AbstractInstr.mk .add (-1)).toInstr = none := by
  decide

theorem test_operand_4096_refused :
    (AbstractInstr.mk .jump 4096).wellFormed = false ∧
      (AbstractInstr.mk .jump 4096).toInstr = none := by decide

theorem test_operand_4095_accepted :
    (AbstractInstr.mk .jump 4095).toInstr = some (.jump 4095) ∧
      (AbstractInstr.mk .load 0).toInstr = some (.load 0) := by decide

theorem test_xlen_zero_refused : (Params.mk 0 16 []).wellFormed = false := by decide

theorem test_mem_size_4097_refused :
    (Params.mk 32 4097 []).wellFormed = false ∧ (Params.mk 32 4096 []).wellFormed = true := by decide

theorem test_program_of_4096_words_refused :
    (Params.mk 32 16 (List.replicate 4096 0)).wellFormed = false ∧
      (Params.mk 32 16 (List.replicate 4095 0)).wellFormed = true := by
  simp only [Params.wellFormed, List.length_replicate]
  decide

/-! ## Decoding: words written out bit by bit, opcode then operand (30_encoding.md R73, R75) -/

theorem test_decode_load : decodeWord 0b0000_111111111111#16 = .ok (.load 4095) := by decide

theorem test_decode_store : decodeWord 0b0001_000000001111#16 = .ok (.store 15) := by decide

theorem test_decode_add : decodeWord 0b0010_000000000001#16 = .ok (.add 1) := by decide

theorem test_decode_sub : decodeWord 0b0011_000000000011#16 = .ok (.sub 3) := by decide

theorem test_decode_jump : decodeWord 0b0100_000000000101#16 = .ok (.jump 5) := by decide

theorem test_decode_nop : decodeWord 0b0101_101010111100#16 = .ok (.nop 2748) := by decide

theorem test_decode_halt : decodeWord 0b0110_000000000000#16 = .ok (.halt 0) := by decide

theorem test_decode_illegal :
    decodeWord 0b0111_000000000000#16 = .error (.unknownOpcode 7) ∧
      decodeWord 0b1111_000100100011#16 = .error (.unknownOpcode 15) := by decide

/-- 20_memory.md R53: a serialised word has its low byte first. -/
theorem test_decode_bytes :
    decodeBytes [0x05, 0x40, 0x00] = .ok (.jump 5, [0x00]) ∧
      decodeBytes [0x00] = .error (.truncated 1) := by decide

theorem test_decode_table_word :
    decodeTableWord 16 0x4005 = some (.jump 5) ∧ decodeTableWord 16 0x6FFF = some (.halt 4095) ∧
      decodeTableWord 16 0x7000 = none := by decide

/-- The worded examples of 30_encoding.md R81. -/
theorem test_assemble :
    assemble [['L', 'O', 'A', 'D', ' ', '0'], ['J', 'U', 'M', 'P', ' ', '9'], ['H', 'A', 'L', 'T']] =
      some [0x0000, 0x4009, 0x6000] := by decide

/-! ## A word placed after reset runs in the next step -/

theorem test_with_fetch_word_add :
    view (step (State.reset.withFetchWord 16 0x2001)) = some (0, 1, 1, false, 0) ∧
      events (step (State.reset.withFetchWord 16 0x2001)) = some [[2, 1, 0, 0]] := by decide

theorem test_with_fetch_word_halt :
    view (step (State.reset.withFetchWord 16 0x6000)) = some (0, 1, 1, true, 0) := by decide

/-! ## The instructions -/

/-- LS1. -/
theorem test_load :
    view (step (cpu (amid 4 0x0003 0) 4 0xFFFFFFFF 4 [(3, 0x2A)])) = some (0x2A, 5, 5, false, 0) ∧
      events (step (cpu (amid 4 0x0003 0) 4 0xFFFFFFFF 4 [(3, 0x2A)])) =
        some [[0, 3, 0x2A, 3]] := by decide

/-- LS2 and LS3: the last legal and the first illegal address. -/
theorem test_load_boundary :
    view (step (cpu [0x000F] 0 7 0 [(15, 0x80000000)])) = some (0x80000000, 1, 1, false, 0) ∧
      view (step (cpu [0x0010] 0 7 0 [])) = some (7, 0, 1, false, 2) ∧
      events (step (cpu [0x0010] 0 7 0 [])) = some [] := by decide

/-- LS5: the cell that was 1 is overwritten, the others stay. -/
theorem test_store :
    view (step (cpu (amid 9 0x1000 0) 9 0xDEADBEEF 20 [(0, 1), (7, 9)])) =
        some (0xDEADBEEF, 10, 21, false, 0) ∧
      cells (step (cpu (amid 9 0x1000 0) 9 0xDEADBEEF 20 [(0, 1), (7, 9)])) =
        some [(0, 0xDEADBEEF), (7, 9)] := by decide

/-- LS6. -/
theorem test_store_out_of_range :
    view (step (cpu (amid 1 0x1FFF 0) 1 5 1 [])) = some (5, 1, 2, false, 2) ∧
      cells (step (cpu (amid 1 0x1FFF 0) 1 5 1 [])) = some [] := by decide

/-- A3 and A4: overflow wraps, no fault. -/
theorem test_add_wraps :
    view (step (cpu [0x2001] 0 0x7FFFFFFF 0 [(1, 1)])) = some (0x80000000, 1, 1, false, 0) ∧
      view (step (cpu [0x2001] 0 0xFFFFFFFF 0 [(1, 1)])) = some (0, 1, 1, false, 0) := by decide

/-- A3 with `XLEN` = 8. -/
theorem test_add_wraps_at_8_bits :
    view (step
      { xlen := 8, memSize := 16, program := [0x2001], acc := 0x7F#8, pc := 0, halted := false,
        cycleCount := 0, fault := 0, mem := [(1, 0x01#8)], elapsedTime := 0, elapsedDraws := 0,
        trace := [] }) = some (0x80, 1, 1, false, 0) := by decide

/-- S1 and S4: the cell is taken from the accumulator. -/
theorem test_sub :
    view (step (cpu [0x3003] 0 8 0 [(3, 10)])) = some (0xFFFFFFFE, 1, 1, false, 0) ∧
      view (step (cpu [0x3003] 0 0x80000000 0 [(3, 1)])) = some (0x7FFFFFFF, 1, 1, false, 0) ∧
      events (step (cpu [0x3003] 0 8 0 [(3, 10)])) = some [[3, 3, 10, 0xFFFFFFFE]] := by decide

/-- S7. -/
theorem test_sub_out_of_range :
    view (step (cpu [0x3FFF] 0 5 0 [])) = some (5, 0, 1, false, 2) := by decide

/-- J1 and J3: a taken JUMP lands on its target, index 0 included. -/
theorem test_jump_taken :
    view (step (cpu (amid 4 0x4005 2) 4 0 4 [])) = some (0, 5, 5, false, 0) ∧
      view (step (cpu (amid 4 0x4000 2) 4 0 4 [])) = some (0, 0, 5, false, 0) ∧
      events (step (cpu (amid 4 0x4000 2) 4 0 4 [])) = some [[4, 0, 1]] := by decide

/-- J8 and J6: only all-zero bits count as zero; a target past the end is kept. -/
theorem test_jump_boundary :
    view (step (cpu (amid 1 0x4003 2) 1 0x80000000 1 [])) = some (0x80000000, 2, 2, false, 0) ∧
      view (step (cpu (amid 0 0x4FFF 1) 0 0 0 [])) = some (0, 4095, 1, false, 0) := by decide

/-- N2: the operand is ignored, and reported as encoded. -/
theorem test_nop :
    view (step (cpu (amid 5 0x5FFF 1) 5 3 5 [])) = some (3, 6, 6, false, 0) ∧
      events (step (cpu (amid 5 0x5FFF 1) 5 3 5 [])) = some [[5, 4095]] := by decide

/-- H1: `pc` is still incremented. -/
theorem test_halt : view (step (cpu (amid 6 0x6000 0) 6 0 6 [])) = some (0, 7, 7, true, 0) := by decide

/-- F1 and F3: an illegal word faults in its cycle, and the machine has no further step. -/
theorem test_unknown_opcode :
    view (step (cpu (amid 1 0x7000 0) 1 4 1 [])) = some (4, 1, 2, false, 1) ∧
      step { cpu (amid 1 0x7000 0) 1 4 2 [] with fault := 1#2 } = .fault .unknownOpcode :=
  ⟨by decide, rfl⟩

/-- 60_exceptions.md R184: `cycle_count` wraps. -/
theorem test_count_wraps :
    view (step (cpu [0x5000] 0 0 0xFFFFFFFFFFFFFFFF [])) = some (0, 1, 0, false, 0) := by decide

/-! ## The host's operations, the ports and the walk -/

/-- RS1. -/
theorem test_reset :
    hostReset { cpu [0x6000] 7 0x2A 7 [(2, 9)] with halted := true } =
      { cpu [0x6000] 0 0 0 [] with trace := [.resetNotice] } := rfl

/-- H3 and F3: `run` on a Halted machine emits the summary again, on a Faulted one nothing. -/
theorem test_run_of_stopped :
    (run 0 { cpu [0x6000] 1 2 1 [(0, 5)] with halted := true }).map (fun t => t.trace.map eventView) =
        some [[100, 1, 2, 1, 5, 0, 0, 0, 0, 0, 0, 0, 0, 0, 0, 0, 0, 0, 0, 0]] ∧
      (run 0 { cpu [0x7000] 0 0 1 [] with fault := 1#2 }).map (fun t => t.trace.map eventView) =
        some [] := ⟨rfl, rfl⟩

theorem test_preload_boundary :
    (preload (cpu [] 0 0 0 []) 15 7).map (fun t => t.mem.map (fun c => (c.1, c.2.toNat))) =
        some [(15, 7)] ∧
      (preload (cpu [] 0 0 0 []) 16 7).isNone = true := ⟨rfl, rfl⟩

/-- 45_interfaces_and_trace.md R154, R155: STORE at the last legal address and beyond it. -/
theorem test_store_port :
    (outputs false true (cpu [0x100F] 0 9 0 [])).dmemWe = true ∧
      (outputs false true (cpu [0x1010] 0 9 0 [])).dmemWe = false ∧
      (outputs false true (cpu [0x1010] 0 9 0 [])).dmemAddr = 16 := by decide

/-- R154: no enable and no pulse without `run`, and none under `rst`; the status outputs stay. -/
theorem test_ports_without_a_cycle :
    (outputs false false (cpu [0x100F] 0 9 0 [])).dmemWe = false ∧
      (outputs true true (cpu [0x000F] 0 9 0 [])).dmemRe = false ∧
      (traceBundle false false (cpu [0x5000] 0 9 0 [])).valid = false ∧
      (traceBundle true true (cpu [0x5000] 0 9 0 [])).valid = false ∧
      (outputs true true (cpu [0x5000] 0 9 0 [])).accO.toNat = 9 := by decide

/-- 44_pipeline_walk.md R143: HALT has a line and ends the walk silently. -/
theorem test_walk_halt :
    (walkCycle (walkStart (cpu [0x6000] 0 9 9 []))).lines = [⟨1, .halt, 0⟩] ∧
      (walkCycle (walkStart (cpu [0x6000] 0 9 9 []))).ended = some .silent := by decide

/-! ## Witnesses: the hypotheses of the statements can be met

Each is named after its statement in Certificates/Slice0/Obligations.lean. A statement over every
instruction, word, state or memory without a hypothesis has none here. -/

/-- The state `step` gives from `s`. -/
def after (s : State) : State :=
  match step s with
  | .next t => t
  | .fault _ => s
  | .refused _ => s

theorem witness_EncodeDecodeAgree : decodeWord 0x5ABC = .ok (.nop 2748) := by decide

theorem witness_DecodeFollowsOpcodeMap :
    (OpcodeRow.mk "HALT" .halt 0x6000 0xF000 ∈ opcodeTable ∧
      (OpcodeRow.mk "HALT" .halt 0x6000 0xF000).covers 0x6FFF = true) ∧
    ∀ r ∈ opcodeTable, r.covers 0x7000 = false := by decide

theorem witness_DecodeByOpcodeAlone :
    opcodeOf 0x4000 = opcodeOf 0x4FFF ∧ decodeWord 0x4FFF = .ok (.jump 4095) := by decide

theorem witness_OnlyUnsignedOperandsRepresentable :
    (0 ≤ (AbstractInstr.mk .add 0).operand ∧ (AbstractInstr.mk .add 0).operand ≤ 4095) ∧
    (0 ≤ (AbstractInstr.mk .add 4095).operand ∧ (AbstractInstr.mk .add 4095).operand ≤ 4095) ∧
    (AbstractInstr.mk .add (-1)).operand < 0 ∧ 4095 < (AbstractInstr.mk .add 4096).operand := by decide

theorem witness_AssemblyReadsBack : Kind.jump ≠ .nop ∧ Kind.jump ≠ .halt := by decide

theorem witness_LoadCopiesCellToAcc :
    (dataAddress 15 < (cpu [0x000F] 0 1 0 []).memSize ∧
      (cpu [0x000F] 0 1 0 []).aboutTo (.load 15)) ∧
    ((cpu [0x0010] 0 1 0 []).memSize ≤ dataAddress 16 ∧
      (cpu [0x0010] 0 1 0 []).aboutTo (.load 16)) :=
  ⟨⟨by decide, State.aboutTo_of_word (by decide) rfl (by decide)⟩,
    by decide, State.aboutTo_of_word (by decide) rfl (by decide)⟩

theorem witness_StoreCopiesAccToCell :
    (dataAddress 15 < (cpu [0x100F] 0 1 0 []).memSize ∧
      (cpu [0x100F] 0 1 0 []).aboutTo (.store 15)) ∧
    ((cpu [0x1010] 0 1 0 []).memSize ≤ dataAddress 16 ∧
      (cpu [0x1010] 0 1 0 []).aboutTo (.store 16)) :=
  ⟨⟨by decide, State.aboutTo_of_word (by decide) rfl (by decide)⟩,
    by decide, State.aboutTo_of_word (by decide) rfl (by decide)⟩

theorem witness_AddAddsCellToAcc :
    (dataAddress 15 < (cpu [0x200F] 0 1 0 []).memSize ∧
      (cpu [0x200F] 0 1 0 []).aboutTo (.add 15)) ∧
    ((cpu [0x2010] 0 1 0 []).memSize ≤ dataAddress 16 ∧
      (cpu [0x2010] 0 1 0 []).aboutTo (.add 16)) :=
  ⟨⟨by decide, State.aboutTo_of_word (by decide) rfl (by decide)⟩,
    by decide, State.aboutTo_of_word (by decide) rfl (by decide)⟩

theorem witness_SubSubtractsCellFromAcc :
    (dataAddress 15 < (cpu [0x300F] 0 1 0 []).memSize ∧
      (cpu [0x300F] 0 1 0 []).aboutTo (.sub 15)) ∧
    ((cpu [0x3010] 0 1 0 []).memSize ≤ dataAddress 16 ∧
      (cpu [0x3010] 0 1 0 []).aboutTo (.sub 16)) :=
  ⟨⟨by decide, State.aboutTo_of_word (by decide) rfl (by decide)⟩,
    by decide, State.aboutTo_of_word (by decide) rfl (by decide)⟩

/-- The last target inside the program, and the first past it. -/
theorem witness_JumpBranchesIfAccZero :
    (cpu [0x4000] 0 0 0 []).aboutTo (.jump 0) ∧
    ((cpu [0x4001] 0 0 0 []).aboutTo (.jump 1) ∧ (cpu [0x4001] 0 0 0 []).acc.toNat = 0 ∧
      (cpu [0x4001] 0 0 0 []).program.length ≤ (1 : Operand).toNat) :=
  ⟨State.aboutTo_of_word (by decide) rfl (by decide),
    State.aboutTo_of_word (by decide) rfl (by decide), by decide, by decide⟩

theorem witness_NopOnlyAdvances : (cpu [0x5FFF] 0 1 0 []).aboutTo (.nop 4095) :=
  State.aboutTo_of_word (by decide) rfl (by decide)

theorem witness_HaltSetsHaltedAndAdvances : (cpu [0x6FFF] 0 1 0 []).aboutTo (.halt 4095) :=
  State.aboutTo_of_word (by decide) rfl (by decide)

theorem witness_FrameOfLoadAddSub :
    (∃ t, exec (.add 15) (cpu [] 0 1 0 []) = .next t ∧ dataAddress 15 < (cpu [] 0 1 0 []).memSize) ∧
    ∃ t, exec (.add 16) (cpu [] 0 1 0 []) = .next t ∧ (cpu [] 0 1 0 []).memSize ≤ dataAddress 16 :=
  ⟨⟨_, rfl, by decide⟩, ⟨_, rfl, by decide⟩⟩

theorem witness_FrameOfStore :
    (∃ t, exec (.store 15) (cpu [] 0 1 0 []) = .next t ∧
      dataAddress 15 < (cpu [] 0 1 0 []).memSize ∧ 14 ≠ dataAddress 15) ∧
    ∃ t, exec (.store 16) (cpu [] 0 1 0 []) = .next t ∧
      (cpu [] 0 1 0 []).memSize ≤ dataAddress 16 :=
  ⟨⟨_, rfl, by decide, by decide⟩, ⟨_, rfl, by decide⟩⟩

theorem witness_FrameOfJumpNopHalt :
    (∃ t, exec (.jump 7) (cpu [] 0 0 0 []) = .next t ∧ Instr.jump 7 ≠ .halt 7) ∧
    (∃ t, exec (.nop 7) (cpu [] 0 0 0 []) = .next t) ∧
    ∃ t, exec (.halt 7) (cpu [] 0 0 0 []) = .next t :=
  ⟨⟨_, rfl, by decide⟩, ⟨_, rfl⟩, ⟨_, rfl⟩⟩

theorem witness_StepRunsDecodedInstruction :
    (cpu [0x2001] 0 1 0 []).Runnable ∧ (cpu [0x2001] 0 1 0 []).program[0]? = some 0x2001 ∧
      decodeWord 0x2001 = .ok (.add 1) := by decide

theorem witness_UnknownOpcodeFaults :
    (cpu [0x7000] 0 1 0 []).Runnable ∧ (cpu [0x7000] 0 1 0 []).program[0]? = some 0x7000 ∧
      7 ≤ (opcodeOf 0x7000).toNat := by decide

theorem witness_RaiseWritesOnlyFault :
    ((cpu [0x7000] 0 1 0 []).Runnable ∧
      ∃ t, step (cpu [0x7000] 0 1 0 []) = .next t ∧ t.fault ≠ 0#2) ∧
    (cpu [0x0010] 0 1 0 []).Runnable ∧
      ∃ t, step (cpu [0x0010] 0 1 0 []) = .next t ∧ t.fault ≠ 0#2 :=
  ⟨⟨by decide, _, rfl, by decide⟩, by decide, _, rfl, by decide⟩

/-- A Halted, an Off the end and three Faulted machines. -/
theorem witness_NotRunnableExecutesNoCycle :
    (({ cpu [0x6000] 1 0 0 [] with halted := true }).fault = 0#2 ∧
      ({ cpu [0x6000] 1 0 0 [] with halted := true }).halted = true) ∧
    ((cpu [0x5000] 1 0 0 []).fault = 0#2 ∧ (cpu [0x5000] 1 0 0 []).halted = false ∧
      (cpu [0x5000] 1 0 0 []).program.length ≤ (cpu [0x5000] 1 0 0 []).pc.toNat) ∧
    ({ cpu [0x7000] 0 0 1 [] with fault := 1#2 }).fault = 1#2 ∧
    ({ cpu [0x0010] 0 0 1 [] with fault := 2#2 }).fault = 2#2 ∧
    ({ cpu [0x0010] 0 0 1 [] with fault := 3#2 }).fault = 3#2 := by decide

theorem witness_RunnableCompletesAndCounts : (cpu [0x5000] 0 0 0xFFFFFFFFFFFFFFFF []).Runnable := by
  decide

theorem witness_MachineConditions :
    ((cpu [0x6000] 1 0 0 []).condition ≠ .runnable ∧
      ∃ t, step (cpu [0x6000] 1 0 0 []) = .next t) ∧
    (cpu [0x6000] 0 0 0 []).condition = .runnable ∧ ∃ t, step (cpu [0x6000] 0 0 0 []) = .next t :=
  ⟨⟨by decide, _, rfl⟩, by decide, _, rfl⟩

/-- A JUMP taken, a JUMP not taken, another instruction, and a cycle that faults. -/
theorem witness_PcAfterCycle :
    ((cpu [0x4005] 0 0 0 []).aboutTo (.jump 5) ∧
      ∃ t, step (cpu [0x4005] 0 0 0 []) = .next t ∧ t.fault = 0#2 ∧
        (cpu [0x4005] 0 0 0 []).acc.toNat = 0) ∧
    ((cpu [0x4005] 0 1 0 []).aboutTo (.jump 5) ∧
      ∃ t, step (cpu [0x4005] 0 1 0 []) = .next t ∧ t.fault = 0#2 ∧
        (cpu [0x4005] 0 1 0 []).acc.toNat ≠ 0) ∧
    ((cpu [0x5000] 0 1 0 []).aboutTo (.nop 0) ∧ (∀ x, Instr.nop 0 ≠ .jump x) ∧
      ∃ t, step (cpu [0x5000] 0 1 0 []) = .next t ∧ t.fault = 0#2) ∧
    (cpu [0x0010] 0 1 0 []).aboutTo (.load 16) ∧
      ∃ t, step (cpu [0x0010] 0 1 0 []) = .next t ∧ t.fault ≠ 0#2 :=
  ⟨⟨State.aboutTo_of_word (by decide) rfl (by decide), _, rfl, by decide, by decide⟩,
    ⟨State.aboutTo_of_word (by decide) rfl (by decide), _, rfl, by decide, by decide⟩,
    ⟨State.aboutTo_of_word (by decide) rfl (by decide), by simp, _, rfl, by decide⟩,
    State.aboutTo_of_word (by decide) rfl (by decide), _, rfl, by decide⟩

/-- A completed NOP at the last word of a program of 4095 words, and the machine just past it. -/
theorem witness_PcNeverWraps :
    ((cpu (List.replicate 4095 0x5000) 4094 0 0 []).program.length ≤ 4095 ∧
      (cpu (List.replicate 4095 0x5000) 4094 0 0 []).Runnable ∧
      ∃ t, step (cpu (List.replicate 4095 0x5000) 4094 0 0 []) = .next t ∧ t.fault = 0#2) ∧
    (cpu (List.replicate 4095 0x5000) 4095 0 0 []).program.length ≤
      (cpu (List.replicate 4095 0x5000) 4095 0 0 []).pc.toNat ∧
    ∃ t, step (cpu (List.replicate 4095 0x5000) 4095 0 0 []) = .next t := by
  have h : (cpu (List.replicate 4095 0x5000) 4094 0 0 []).Runnable :=
    ⟨rfl, rfl, by simp only [cpu, List.length_replicate]; decide⟩
  have hn : (cpu (List.replicate 4095 0x5000) 4095 0 0 []).program.length ≤
      (cpu (List.replicate 4095 0x5000) 4095 0 0 []).pc.toNat := by
    simp only [cpu, List.length_replicate]; decide
  have hw : fetch (cpu (List.replicate 4095 0x5000) 4094 0 0 []) = some 0x5000 := by
    simp only [fetch, cpu, List.getElem?_replicate]
    decide
  have ho : (cpu (List.replicate 4095 0x5000) 4095 0 0 []).condition = .offEnd := by
    unfold State.condition
    exact (if_neg fun h => h rfl).trans ((if_neg fun h => nomatch h).trans (if_neg (by omega)))
  refine ⟨⟨by simp only [cpu, List.length_replicate]; decide, h, ?_⟩, hn, ?_⟩
  · rw [step_of_runnable ((condition_eq_runnable_iff _).2 h)]
    unfold cycle
    rw [hw]
    exact ⟨_, rfl, rfl⟩
  · unfold step stepOnce
    rw [ho]
    exact ⟨_, rfl⟩

theorem witness_HaltedSetOnlyByHalt : ∃ t, step (cpu [0x6000] 0 0 0 []) = .next t := ⟨_, rfl⟩

theorem witness_AccWrittenOnlyByLoadAddSub :
    ∃ t, step (cpu [0x200F] 0 1 0 [(15, 1)]) = .next t ∧
      t.accValue ≠ (cpu [0x200F] 0 1 0 [(15, 1)]).accValue := ⟨_, rfl, by decide⟩

theorem witness_CellsWrittenOnlyByStore :
    ∃ t, step (cpu [0x100F] 0 1 0 []) = .next t ∧
      t.cellValue 15 ≠ (cpu [0x100F] 0 1 0 []).cellValue 15 := ⟨_, rfl, by decide⟩

theorem witness_ProgramStoreIsReadOnly :
    (∃ t, step (cpu [0x1000] 0 1 0 []) = .next t) ∧ (∃ t, run 1 (cpu [0x1000] 0 1 0 []) = some t) ∧
      ∃ t, preload (cpu [0x1000] 0 1 0 []) 15 1#32 = some t := ⟨⟨_, rfl⟩, ⟨_, rfl⟩, ⟨_, rfl⟩⟩

theorem witness_StepKeepsInv :
    ((cpu [0x100F] 0 1 0 [(3, 5)]).Inv ∧ ∃ t, step (cpu [0x100F] 0 1 0 [(3, 5)]) = .next t) ∧
    (cpu [0x1010] 0 1 0 []).Inv ∧ ∃ t, step (cpu [0x1010] 0 1 0 []) = .next t ∧ t.fault = 2#2 :=
  ⟨⟨by decide, _, rfl⟩, by decide, _, rfl, by decide⟩

theorem witness_ResetAndConstructMeetInv :
    ((Params.mk 1 4096 [0x7000]).wellFormed = true ∧ (Params.mk 32 0 []).wellFormed = true) ∧
    ((cpu [0x6000] 1 2 1 [(3, 5)]).Inv ∧ ∃ t, preload (cpu [0x6000] 1 2 1 [(3, 5)]) 15 7#32 = some t) ∧
    ({ cpu [0x7000] 0 0 1 [] with fault := 1#2 } : State).Inv :=
  ⟨by decide, ⟨by decide, _, rfl⟩,
    by decide, by decide, .inr ⟨rfl, 0x7000, rfl, .inl ⟨rfl, by decide⟩⟩⟩

theorem witness_ZeroDataStaysZero :
    ((cpu [0x4000] 0 0 0 []).allZero ∧ (∃ t, step (cpu [0x4000] 0 0 0 []) = .next t) ∧
      (cpu [0x4000] 0 0 0 []).aboutTo (.jump 0)) ∧
    ∃ v, run 2 (construct ⟨32, 16, [0x2001, 0x6000]⟩) = some v :=
  ⟨⟨by decide, ⟨_, rfl⟩, State.aboutTo_of_word (by decide) rfl (by decide)⟩, _, rfl⟩

theorem witness_ReadAfterWrite : (14 : Nat) ≠ 15 := by decide

/-- Two memories made in different orders. -/
theorem witness_EqualCellsAreEqualMemory :
    Memory.wf (Memory.write (Memory.write [] 1 5#8) 2 6#8) ∧
    Memory.wf (Memory.write (Memory.write [] 2 6#8) 1 5#8) ∧
    (∀ a, Memory.read (Memory.write (Memory.write [] 1 5#8) 2 6#8) a =
      Memory.read (Memory.write (Memory.write [] 2 6#8) 1 5#8) a) :=
  ⟨by decide, by decide, fun _ => rfl⟩

theorem witness_LoadStoreRoundTrip :
    dataAddress 0 < (cpu [] 0 0 0 []).memSize ∧ dataAddress 15 < (cpu [] 0 0 0 []).memSize := by decide

theorem witness_AddSubInverse :
    dataAddress 0 < (cpu [] 0 0 0 []).memSize ∧ dataAddress 15 < (cpu [] 0 0 0 []).memSize := by decide

/-- The largest sum and the smallest difference that fit 32 bits. -/
theorem witness_SignedArithmeticWithoutOverflow :
    (1 ≤ (cpu [] 0 0x7FFFFFFE 0 [(15, 1)]).xlen ∧
      dataAddress 15 < (cpu [] 0 0x7FFFFFFE 0 [(15, 1)]).memSize ∧
      -2 ^ 31 ≤ (cpu [] 0 0x7FFFFFFE 0 [(15, 1)]).accInt +
        ((cpu [] 0 0x7FFFFFFE 0 [(15, 1)]).mem.read 15).toInt ∧
      (cpu [] 0 0x7FFFFFFE 0 [(15, 1)]).accInt +
        ((cpu [] 0 0x7FFFFFFE 0 [(15, 1)]).mem.read 15).toInt < 2 ^ 31) ∧
    (-2 ^ 31 ≤ (cpu [] 0 0x80000001 0 [(15, 1)]).accInt -
        ((cpu [] 0 0x80000001 0 [(15, 1)]).mem.read 15).toInt ∧
      (cpu [] 0 0x80000001 0 [(15, 1)]).accInt -
        ((cpu [] 0 0x80000001 0 [(15, 1)]).mem.read 15).toInt < 2 ^ 31) := by decide

theorem witness_UnconditionalJumpIdiom :
    dataAddress 15 < (cpu [] 0 9 0 [(3, 1)]).memSize ∧ (cpu [] 0 9 0 [(3, 1)]).cellValue 15 = 0 := by
  decide

theorem witness_JumpToItselfHangs :
    (cpu [0x4000] 0 0 0 []).aboutTo (.jump (cpu [0x4000] 0 0 0 []).pc) ∧
      (cpu [0x4000] 0 0 0 []).acc.toNat = 0 :=
  ⟨State.aboutTo_of_word (by decide) rfl (by decide), by decide⟩

/-- One run from `reset` and the same from construction. -/
theorem witness_ResetRunReproducesFreshRun :
    (∃ u, run 1 (hostReset (cpu [0x6000] 1 7 9 [(2, 9)])) = some u) ∧
      ∃ v, run 1 (construct (cpu [0x6000] 1 7 9 [(2, 9)]).params) = some v := ⟨⟨_, rfl⟩, ⟨_, rfl⟩⟩

/-- A run that halts and one that faults, and the same from the cycles: two that end Halted, one that
ends Faulted. -/
theorem witness_RunEndsWithSummary :
    ((∃ u, run 1 (cpu [0x6000] 0 0 0 []) = some u ∧ u.fault = 0#2) ∧
      ∃ u, run 1 (cpu [0x7000] 0 0 0 []) = some u ∧ u.fault ≠ 0#2) ∧
    ((∀ j < 2, (afterCycles j (cpu [0x5000, 0x6000] 0 0 0 [])).condition = .runnable) ∧
      (afterCycles 2 (cpu [0x5000, 0x6000] 0 0 0 [])).condition ≠ .runnable ∧ 2 ≤ 2) ∧
    (∀ j < 1, (afterCycles j (cpu [0x7000] 0 0 0 [])).condition = .runnable) ∧
      (afterCycles 1 (cpu [0x7000] 0 0 0 [])).condition ≠ .runnable ∧ 1 ≤ 3 :=
  ⟨⟨⟨_, rfl, rfl⟩, ⟨_, rfl, by decide⟩⟩, by decide, by decide⟩

/-- Off the end and Faulted; the empty program among them. -/
theorem witness_RunOfStoppedMachine :
    ¬ (cpu [] 0 0 0 []).Runnable ∧ ¬ ({ cpu [0x7000] 0 0 0 [] with fault := 1#2 } : State).Runnable := by
  decide

/-- Two cycles of a run that never ends, and a run that ends after two. -/
theorem witness_RunIsLimitedByFuelOnly :
    (∀ j < 2, (afterCycles j (cpu [0x4000] 0 0 0 [])).condition = .runnable) ∧
    ((∀ j < 2, (afterCycles j (cpu [0x5000, 0x6000] 0 0 0 [])).condition = .runnable) ∧
      (afterCycles 2 (cpu [0x5000, 0x6000] 0 0 0 [])).condition ≠ .runnable) ∧
    (∃ u, run 1 (cpu [0x6000] 0 0 0 []) = some u) ∧ 1 ≤ 2 :=
  ⟨by decide, by decide, ⟨_, rfl⟩, by decide⟩

theorem witness_PreloadSetsOneCell :
    15 < (cpu [] 0 0 0 []).memSize ∧ (cpu [] 0 0 0 []).memSize ≤ 16 := by decide

/-- Two states that differ in the trace and the elapsed time, one with a next state and one Faulted. -/
theorem witness_OutputsAreReadByNothing :
    ((cpu [0x5000] 0 0 0 []).architectural =
        ({ cpu [0x5000] 0 0 0 [] with elapsedTime := 9, trace := [.resetNotice] }).architectural ∧
      ∃ t, step (cpu [0x5000] 0 0 0 []) = .next t) ∧
    step { cpu [0x5000] 0 0 0 [] with fault := 1#2 } = .fault .unknownOpcode :=
  ⟨⟨rfl, _, rfl⟩, rfl⟩

theorem witness_ControlTableIsTheCycle :
    (cpu [0x1010] 0 0 0 []).Runnable ∧ (cpu [0x1010] 0 0 0 []).program[0]? = some 0x1010 := by decide

theorem witness_DataPortEnables :
    ((outputs false true (cpu [0x100F] 0 1 0 [])).dmemWe = true ∧ (cpu [0x100F] 0 1 0 []).aboutTo (.store 15)) ∧
    ((cpu [0x200F] 0 1 0 []).aboutTo (.add 15) ∧ dataAddress 15 < (cpu [0x200F] 0 1 0 []).memSize) ∧
    (cpu [0x0010] 0 1 0 []).aboutTo (.load 16) :=
  ⟨⟨by decide, State.aboutTo_of_word (by decide) rfl (by decide)⟩,
    ⟨State.aboutTo_of_word (by decide) rfl (by decide), by decide⟩,
    State.aboutTo_of_word (by decide) rfl (by decide)⟩

theorem witness_TraceBundleFields :
    ((cpu [0x000F] 0 1 0 []).aboutTo (.load 15) ∧ dataAddress 15 < (cpu [0x000F] 0 1 0 []).memSize) ∧
    (cpu [0x100F] 0 1 0 []).aboutTo (.store 15) ∧ (cpu [0x200F] 0 1 0 []).aboutTo (.add 15) ∧
    (cpu [0x300F] 0 1 0 []).aboutTo (.sub 15) ∧ (cpu [0x4FFF] 0 1 0 []).aboutTo (.jump 4095) ∧
    (cpu [0x5000] 0 1 0 []).aboutTo (.nop 0) ∧ (cpu [0x6000] 0 1 0 []).aboutTo (.halt 0) ∧
    ¬ (cpu [0x6000] 1 1 0 []).Runnable ∧
    (cpu [0x0010] 0 1 0 []).Runnable ∧ ∃ t, step (cpu [0x0010] 0 1 0 []) = .next t :=
  ⟨⟨State.aboutTo_of_word (by decide) rfl (by decide), by decide⟩,
    State.aboutTo_of_word (by decide) rfl (by decide),
    State.aboutTo_of_word (by decide) rfl (by decide),
    State.aboutTo_of_word (by decide) rfl (by decide),
    State.aboutTo_of_word (by decide) rfl (by decide),
    State.aboutTo_of_word (by decide) rfl (by decide),
    State.aboutTo_of_word (by decide) rfl (by decide),
    by decide, by decide, _, rfl⟩

theorem witness_ClockPriority :
    (cpu [0x6000] 0 1 0 []).Runnable ∧ ¬ (cpu [0x6000] 1 1 0 []).Runnable := by decide

/-- A completed HALT, a completed NOP, a faulting word, and the end of the program. -/
theorem witness_WalkCycleLinesAndEnds :
    (walkStart (cpu [0x6000] 0 0 0 [])).ended = none ∧
    ((walkStart (cpu [0x6000] 0 0 0 [])).engine.aboutTo (.halt 0) ∧
      ∃ t, step (walkStart (cpu [0x6000] 0 0 0 [])).engine = .next t ∧ t.fault = 0#2) ∧
    ((walkStart (cpu [0x5000] 0 0 0 [])).engine.aboutTo (.nop 0) ∧
      ∃ t, step (walkStart (cpu [0x5000] 0 0 0 [])).engine = .next t ∧ t.fault = 0#2) ∧
    ((walkStart (cpu [0x7000] 0 0 0 [])).engine.Runnable ∧
      ∃ t, step (walkStart (cpu [0x7000] 0 0 0 [])).engine = .next t ∧ t.fault ≠ 0#2) ∧
    (walkStart (cpu [] 0 0 0 [])).engine.condition = .offEnd :=
  ⟨rfl, ⟨State.aboutTo_of_word (by decide) rfl (by decide), _, rfl, by decide⟩,
    ⟨State.aboutTo_of_word (by decide) rfl (by decide), _, rfl, by decide⟩,
    ⟨by decide, _, rfl, by decide⟩, by decide⟩

/-- L1-7: LOAD 0, ADD 1, STORE 2 has no HALT and its run ends without a fault. -/
theorem witness_WalkAgreesWithRun :
    (∀ w ∈ (Params.mk 32 16 [0x0000, 0x2001, 0x1002]).program, ∀ x, decodeWord w ≠ .ok (.halt x)) ∧
      ∃ v, run 3 (construct ⟨32, 16, [0x0000, 0x2001, 0x1002]⟩) = some v ∧ v.fault = 0#2 :=
  ⟨by simp [decodeWord, opcodeOf, kindOf, Kind.withOperand], _, rfl, by decide⟩

end Sys2Proof.Tests
end

namespace Sys2Proof.Machine

/-! ## What a decoded instruction can do -/

/-- The opcode map read backwards (30_encoding.md R75). -/
theorem kindOf_eq_some_iff (o : Opcode) (k : Kind) : kindOf o = some k ↔ o = k.opcode := by
  constructor
  · cases k <;> revert o <;> decide
  · rintro rfl
    exact kindOf_opcode k

theorem opcodeOf_of_decodeWord {w : InstrWord} {i : Instr} (h : decodeWord w = .ok i) :
    opcodeOf w = i.kind.opcode :=
  (kindOf_eq_some_iff _ _).1 (decodeWord_ok h).1

/-- Every instruction either completes, writing at most `acc`, one existing cell (STORE), `pc` and
`halted` before its event and the increment, or is an access out of range that raises
(40_execution_cycle.md R94, 60_exceptions.md R172). -/
theorem exec_cases {i : Instr} {s t : State} (h : exec i s = .next t) :
    (∃ acc mem pc halted d,
      t = retire i { s with acc := acc, mem := mem, pc := pc, halted := halted } d ∧
        (mem = s.mem ∨ ∃ a, i = .store a ∧ dataAddress a < s.memSize ∧
          mem = s.mem.write (dataAddress a) s.acc)) ∨
      (i.kind.opcode.toNat ≤ 3 ∧ s.memSize ≤ dataAddress i.operand ∧
        t = raise .addressOutOfRange s) := by
  cases i with
  | load a =>
    obtain ⟨-, e⟩ | ⟨ha, e⟩ := execLoad_cases a s <;> cases e.symm.trans h
    · exact .inl ⟨_, _, _, _, _, rfl, .inl rfl⟩
    · exact .inr ⟨by simp [Instr.kind, Kind.opcode], ha, rfl⟩
  | store a =>
    obtain ⟨ha, e⟩ | ⟨ha, e⟩ := execStore_cases a s <;> cases e.symm.trans h
    · exact .inl ⟨_, _, _, _, _, rfl, .inr ⟨a, rfl, ha, rfl⟩⟩
    · exact .inr ⟨by simp [Instr.kind, Kind.opcode], ha, rfl⟩
  | add a =>
    obtain ⟨-, e⟩ | ⟨ha, e⟩ := execAlu_cases (.add a) (fun _ x y => x + y) a s <;>
      cases e.symm.trans h
    · exact .inl ⟨_, _, _, _, _, rfl, .inl rfl⟩
    · exact .inr ⟨by simp [Instr.kind, Kind.opcode], ha, rfl⟩
  | sub a =>
    obtain ⟨-, e⟩ | ⟨ha, e⟩ := execAlu_cases (.sub a) (fun _ x y => x - y) a s <;>
      cases e.symm.trans h
    · exact .inl ⟨_, _, _, _, _, rfl, .inl rfl⟩
    · exact .inr ⟨by simp [Instr.kind, Kind.opcode], ha, rfl⟩
  | jump x =>
    obtain ⟨-, e⟩ | ⟨-, e⟩ := execJump_cases x s <;> cases e.symm.trans h <;>
      exact .inl ⟨_, _, _, _, _, rfl, .inl rfl⟩
  | nop x =>
    cases h
    exact .inl ⟨_, _, _, _, _, rfl, .inl rfl⟩
  | halt x =>
    cases h
    exact .inl ⟨_, _, _, _, _, rfl, .inl rfl⟩

/-! ## What every step keeps -/

theorem exec_params {i : Instr} {s t : State} (h : exec i s = .next t) : t.params = s.params := by
  obtain ⟨_, _, _, _, _, rfl, -⟩ | ⟨-, -, rfl⟩ := exec_cases h <;> rfl

theorem step_params {s t : State} (h : step s = .next t) : t.params = s.params := by
  obtain ⟨-, -, rfl⟩ | ⟨-, _, -, ⟨_, -, rfl⟩ | ⟨_, -, he⟩⟩ := step_cases h
  · rfl
  · rfl
  · exact exec_params (s := countCycle s) he

/-- The ranges of 00_scope.md R7 speak of the parameters alone. -/
theorem instanceOk_of_params_eq {s t : State} (h : t.params = s.params) (hs : s.instanceOk) :
    t.instanceOk := by
  simp only [State.params, Params.mk.injEq] at h
  obtain ⟨hx, hm, hp⟩ := h
  simpa only [State.instanceOk, hx, hm, hp] using hs

theorem exec_memoryOk {i : Instr} {s t : State} (h : exec i s = .next t) (hs : s.memoryOk) :
    t.memoryOk := by
  obtain ⟨_, _, _, _, _, rfl, rfl | ⟨a, -, ha, rfl⟩⟩ | ⟨-, -, rfl⟩ := exec_cases h
  · exact hs
  · exact ⟨Memory.write_wf _ _ hs.1, Memory.write_below _ hs.2 ha⟩
  · exact hs

theorem step_memoryOk {s t : State} (h : step s = .next t) (hs : s.memoryOk) : t.memoryOk := by
  obtain ⟨-, -, rfl⟩ | ⟨-, _, -, ⟨_, -, rfl⟩ | ⟨_, -, he⟩⟩ := step_cases h
  · exact hs
  · exact hs
  · exact exec_memoryOk he hs

/-- After any step that answers a next state faults are precise, whatever state it started from: a
machine that steps had no fault recorded, so a fault found after it was raised by the word at `pc`,
which the raise left in place (60_exceptions.md R174, R177). -/
theorem step_faultPrecise {s t : State} (h : step s = .next t) : t.faultPrecise := by
  obtain ⟨-, hf, rfl⟩ | ⟨⟨hf, hh, -⟩, w, hw, ⟨_, hd, rfl⟩ | ⟨i, hd, he⟩⟩ := step_cases h
  · exact .inl hf
  · exact .inr ⟨hh, w, hw, .inl ⟨rfl, decodeWord_error hd⟩⟩
  · obtain ⟨_, _, _, _, _, rfl, -⟩ | ⟨hk, ha, rfl⟩ := exec_cases he
    · exact .inl hf
    · have hop : (opcodeOf w).toNat ≤ 3 := by rwa [opcodeOf_of_decodeWord hd]
      have hrange : s.memSize ≤ (operandOf w).toNat := by rwa [(decodeWord_ok hd).2]
      exact .inr ⟨hh, w, hw, .inr ⟨rfl, hop, hrange⟩⟩

/-- Settles O31, by its three parts: no step writes a parameter, STORE alone writes memory and keeps
its form, and a step leaves only a fault that names the word at `pc`. -/
theorem stepKeepsInv : Obligations.StepKeepsInv := fun _ _ ⟨hinst, hmem, _⟩ h =>
  ⟨instanceOk_of_params_eq (step_params h) hinst, step_memoryOk h hmem, step_faultPrecise h⟩

/-! ## What `run` and the host keep -/

theorem run_zero_of_runnable {s : State} (h : s.condition = .runnable) : run 0 s = none := by
  unfold run
  exact if_pos h

/-- What every step and the end of a `run` keep holds of the final state of a `run`, under any fuel. -/
theorem run_keeps {P : State → Prop} (hstep : ∀ s t, P s → step s = .next t → P t)
    (hend : ∀ s, P s → P (endRun s)) {n : Nat} {s t : State} (h : run n s = some t) (hs : P s) :
    P t := by
  induction n generalizing s with
  | zero =>
    by_cases hc : s.condition = .runnable
    · cases (run_zero_of_runnable hc).symm.trans h
    · cases (run_of_stopped 0 hc).symm.trans h
      exact hend s hs
  | succ n ih =>
    by_cases hc : s.condition = .runnable
    · obtain ⟨u, hu⟩ := cycle_next s
      have hrest : run n u = some t := (run_of_runnable n hc hu).symm.trans h
      exact ih hrest (hstep s u hs ((step_of_runnable hc).trans hu))
    · cases (run_of_stopped (n + 1) hc).symm.trans h
      exact hend s hs

theorem endRun_params (s : State) : (endRun s).params = s.params := by
  by_cases hf : s.fault = 0#2
  · rw [endRun_of_safe hf]
    rfl
  · rw [endRun_of_faulted hf]
    rfl

theorem run_params {n : Nat} {s t : State} (h : run n s = some t) : t.params = s.params :=
  run_keeps (P := fun u => u.params = s.params) (fun _ _ hu hst => (step_params hst).trans hu)
    (fun u hu => (endRun_params u).trans hu) h rfl

/-- `preload` has a result for an existing cell only, and writes that cell only (20_memory.md R63). -/
theorem preload_eq_some_iff {s t : State} {a : Nat} {v : BitVec s.xlen} :
    preload s a v = some t ↔ a < s.memSize ∧ t = { s with mem := s.mem.write a v } := by
  unfold preload
  split
  · simp [*, eq_comm]
  · simp [*]

/-- Settles O30, `run` by induction on the fuel. -/
theorem programStoreIsReadOnly : Obligations.ProgramStoreIsReadOnly := by
  refine ⟨fun _ _ => step_params, fun _ _ _ => run_params, fun _ => rfl, fun s a v t h => ?_⟩
  obtain ⟨-, rfl⟩ := preload_eq_some_iff.1 h
  rfl

/-- Settles O41, by evaluating the reset state. -/
theorem resetState : Obligations.ResetState :=
  ⟨rfl, rfl, rfl, rfl, rfl, rfl, fun _ => rfl, rfl, rfl, rfl⟩

end Sys2Proof.Machine

namespace Sys2Proof.Machine

/-! ## The next state of an instruction, register by register

`executed` is the next state of `exec` as a function of the state (`exec_eq`), so that a claim about
one register after a cycle is read off the function that gives it. -/

/-- The instruction accesses a cell that does not exist (60_exceptions.md R172). -/
def outOfRange (i : Instr) (s : State) : Bool :=
  match i with
  | .load a | .store a | .add a | .sub a => decide (s.memSize ≤ dataAddress a)
  | .jump _ | .nop _ | .halt _ => false

/-- The accumulator after an instruction that completes (10_state.md R23). -/
def nextAcc (i : Instr) (s : State) : BitVec s.xlen :=
  match i with
  | .load a => s.mem.read (dataAddress a)
  | .add a => s.acc + s.mem.read (dataAddress a)
  | .sub a => s.acc - s.mem.read (dataAddress a)
  | .store _ | .jump _ | .nop _ | .halt _ => s.acc

/-- Data memory after an instruction that completes (20_memory.md R56). -/
def nextMem (i : Instr) (s : State) : Memory s.xlen :=
  match i with
  | .store a => s.mem.write (dataAddress a) s.acc
  | .load _ | .add _ | .sub _ | .jump _ | .nop _ | .halt _ => s.mem

/-- `pc` after an instruction that completes, the common increment included (10_state.md R26). -/
def nextPc (i : Instr) (s : State) : PcWord :=
  match i with
  | .jump x => if s.acc = 0#s.xlen then x else s.pc + 1#12
  | .load _ | .store _ | .add _ | .sub _ | .nop _ | .halt _ => s.pc + 1#12

/-- `halted` after an instruction that completes (10_state.md R28). -/
def nextHalted (i : Instr) (s : State) : Bool :=
  match i with
  | .halt _ => true
  | .load _ | .store _ | .add _ | .sub _ | .jump _ | .nop _ => s.halted

/-- The detail of the step event (45_interfaces_and_trace.md R158). -/
def detailOf (i : Instr) (s : State) : StepDetail s.xlen :=
  match i with
  | .load a => .loaded (s.mem.read (dataAddress a)) (dataAddress a)
  | .store a => .stored s.acc (dataAddress a)
  | .add a | .sub a => .arithmetic (s.mem.read (dataAddress a)) (nextAcc i s)
  | .jump _ => .jump (decide (s.acc = 0#s.xlen))
  | .nop _ | .halt _ => .plain

/-- The state after an instruction that completes. -/
def completed (i : Instr) (s : State) : State :=
  { s with
    acc := nextAcc i s
    mem := nextMem i s
    pc := nextPc i s
    halted := nextHalted i s
    trace := s.trace ++ [.step i.kind i.operand (detailOf i s)] }

/-- The state after an instruction, completed or raised. -/
def executed (i : Instr) (s : State) : State :=
  if outOfRange i s then raise .addressOutOfRange s else completed i s

theorem executed_of_outOfRange {i : Instr} {s : State} (h : outOfRange i s = true) :
    executed i s = raise .addressOutOfRange s := if_pos h

theorem executed_of_inRange {i : Instr} {s : State} (h : outOfRange i s = false) :
    executed i s = completed i s := if_neg (Bool.eq_false_iff.1 h)

/-- The common increment makes the intermediate `pc` of a taken JUMP its target (43_control.md R131). -/
theorem jumpIntermediate_add_one (x : Operand) : jumpIntermediate x + 1#12 = x :=
  BitVec.sub_add_cancel x 1#12

/-- A taken JUMP completes: its two writes of `pc` come to one. -/
theorem retire_jump_taken (x : Operand) {s : State} (h : s.acc = 0#s.xlen) :
    retire (.jump x) { s with pc := jumpIntermediate x } (.jump true) = completed (.jump x) s := by
  simp [retire, advance, completed, nextAcc, nextMem, nextPc, nextHalted, detailOf, h,
    jumpIntermediate_add_one]

/-- A JUMP that is not taken completes. -/
theorem retire_jump_not_taken (x : Operand) {s : State} (h : s.acc ≠ 0#s.xlen) :
    retire (.jump x) s (.jump false) = completed (.jump x) s := by
  simp [retire, advance, completed, nextAcc, nextMem, nextPc, nextHalted, detailOf, h]

/-- An access that completes in range and raises out of range gives `executed`. -/
theorem eq_next_executed_of_access {i : Instr} {a : Operand} {s : State}
    {o : Host.Outcome State Fault Refusal}
    (hrange : outOfRange i s = decide (s.memSize ≤ dataAddress a))
    (ho : (dataAddress a < s.memSize ∧ o = .next (completed i s)) ∨
      (s.memSize ≤ dataAddress a ∧ o = .next (raise .addressOutOfRange s))) :
    o = .next (executed i s) := by
  obtain ⟨ha, rfl⟩ | ⟨ha, rfl⟩ := ho
  · rw [executed_of_inRange (hrange.trans (decide_eq_false (Nat.not_le.2 ha)))]
  · rw [executed_of_outOfRange (hrange.trans (decide_eq_true ha))]

/-- `exec` as a function of the state. -/
theorem exec_eq (i : Instr) (s : State) : exec i s = .next (executed i s) := by
  cases i with
  | load a => exact eq_next_executed_of_access rfl (execLoad_cases a s)
  | store a => exact eq_next_executed_of_access rfl (execStore_cases a s)
  | add a => exact eq_next_executed_of_access rfl (execAlu_cases (.add a) (fun _ x y => x + y) a s)
  | sub a => exact eq_next_executed_of_access rfl (execAlu_cases (.sub a) (fun _ x y => x - y) a s)
  | jump x =>
    rw [executed_of_inRange rfl]
    obtain ⟨h, e⟩ | ⟨h, e⟩ := execJump_cases x s
    · exact e.trans (congrArg _ (retire_jump_taken x h))
    · exact e.trans (congrArg _ (retire_jump_not_taken x h))
  | nop x => rfl
  | halt x => rfl

/-! ## What a step does -/

/-- Decoding is a function: a machine is about to execute one instruction at most. -/
theorem State.aboutTo_unique {s : State} {i j : Instr} (hi : s.aboutTo i) (hj : s.aboutTo j) :
    i = j := by
  obtain ⟨-, w, hw, hdi⟩ := hi
  obtain ⟨-, v, hv, hdj⟩ := hj
  obtain rfl : w = v := Option.some.inj (hw.symm.trans hv)
  exact Except.ok.inj (hdi.symm.trans hdj)

/-- What a step that answers a next state has done to the machine: nothing to a stopped one; a raise
of UnknownOpcode, in a machine about to execute no instruction; or the instruction it was about to
execute, which went out of range or completed. -/
theorem step_outcomes {s t : State} (h : step s = .next t) :
    (¬ s.Runnable ∧ s.fault = 0#2 ∧ t = s) ∨
      (s.Runnable ∧ (∀ i, ¬ s.aboutTo i) ∧ t = raise .unknownOpcode (countCycle s)) ∨
      ∃ i, s.aboutTo i ∧
        ((outOfRange i s = true ∧ t = raise .addressOutOfRange (countCycle s)) ∨
          (outOfRange i s = false ∧ t = completed i (countCycle s))) := by
  obtain hstop | ⟨hr, w, hw, ⟨e, he, ht⟩ | ⟨i, hi, hx⟩⟩ := step_cases h
  · exact .inl hstop
  · refine .inr (.inl ⟨hr, ?_, ht⟩)
    rintro i ⟨-, v, hv, hdv⟩
    obtain rfl : w = v := Option.some.inj (hw.symm.trans hv)
    cases he.symm.trans hdv
  · refine .inr (.inr ⟨i, State.aboutTo_of_word hr hw hi, ?_⟩)
    obtain rfl : executed i (countCycle s) = t := Host.Outcome.next.inj ((exec_eq ..).symm.trans hx)
    cases hor : outOfRange i s
    · exact .inr ⟨rfl, executed_of_inRange hor⟩
    · exact .inl ⟨rfl, executed_of_outOfRange hor⟩

/-- The step of a machine about to execute `i`. -/
theorem step_of_aboutTo {s t : State} {i : Instr} (hi : s.aboutTo i) (h : step s = .next t) :
    (outOfRange i s = true ∧ t = raise .addressOutOfRange (countCycle s)) ∨
      (outOfRange i s = false ∧ t = completed i (countCycle s)) := by
  obtain ⟨hr, -⟩ | ⟨-, hno, -⟩ | ⟨j, hj, ht⟩ := step_outcomes h
  · exact absurd hi.1 hr
  · exact absurd hi (hno i)
  · rwa [State.aboutTo_unique hi hj]

theorem step_of_not_runnable {s t : State} (hr : ¬ s.Runnable) (h : step s = .next t) : t = s := by
  obtain ⟨-, -, ht⟩ | ⟨hr', -, -⟩ | ⟨i, hi, -⟩ := step_outcomes h
  · exact ht
  · exact absurd hr' hr
  · exact absurd hi.1 hr

/-! ## The outputs are read by nothing -/

/-- An outcome whose next state is taken without its outputs. -/
def withoutOutputs : Host.Outcome State Fault Refusal → Host.Outcome State Fault Refusal
  | .next t => .next t.architectural
  | .fault f => .fault f
  | .refused r => .refused r

theorem withoutOutputs_eq_next_iff {o : Host.Outcome State Fault Refusal} {u : State} :
    withoutOutputs o = .next u ↔ ∃ t, o = .next t ∧ t.architectural = u := by
  cases o <;> simp [withoutOutputs]

theorem withoutOutputs_eq_fault_iff {o : Host.Outcome State Fault Refusal} {f : Fault} :
    withoutOutputs o = .fault f ↔ o = .fault f := by
  cases o <;> simp [withoutOutputs]

theorem completed_architectural (i : Instr) (s : State) :
    (completed i s.architectural).architectural = (completed i s).architectural := by
  cases i <;> rfl

theorem executed_architectural (i : Instr) (s : State) :
    (executed i s.architectural).architectural = (executed i s).architectural := by
  have hrange : outOfRange i s.architectural = outOfRange i s := by cases i <;> rfl
  cases h : outOfRange i s
  · rw [executed_of_inRange h, executed_of_inRange (hrange.trans h), completed_architectural]
  · rw [executed_of_outOfRange h, executed_of_outOfRange (hrange.trans h)]
    rfl

theorem cycle_architectural (s : State) :
    withoutOutputs (cycle s.architectural) = withoutOutputs (cycle s) := by
  have hfetch : fetch s.architectural = fetch s := rfl
  unfold cycle
  rw [hfetch]
  cases fetch s with
  | none => rfl
  | some w =>
    cases hd : decodeWord w with
    | error e => simp only [hd]; rfl
    | ok i =>
      simp only [hd, exec_eq]
      exact congrArg Host.Outcome.next (executed_architectural i (countCycle s))

/-- A step of a state and a step of it without its outputs differ in the outputs alone. -/
theorem step_architectural (s : State) :
    withoutOutputs (step s.architectural) = withoutOutputs (step s) := by
  have hcond : s.architectural.condition = s.condition := rfl
  unfold step stepOnce
  rw [hcond]
  cases s.condition with
  | runnable => exact cycle_architectural s
  | halted | offEnd | faulted => rfl

/-- Settles O49: both steps agree with the step of the state without its outputs, which the two
states share. -/
theorem outputsAreReadByNothing : Obligations.OutputsAreReadByNothing := by
  intro s s' h
  have hstep : withoutOutputs (step s') = withoutOutputs (step s) := by
    rw [← step_architectural s, h, step_architectural s']
  refine ⟨fun t ht => ?_, fun f hf => ?_⟩
  · obtain ⟨t', ht', ha⟩ := withoutOutputs_eq_next_iff.1 (hstep.trans (congrArg withoutOutputs ht))
    exact ⟨t', ht', ha.symm⟩
  · exact withoutOutputs_eq_fault_iff.1 (hstep.trans (congrArg withoutOutputs hf))

/-! ## The registers after a step -/

/-- No raise records the cause 0 (60_exceptions.md R170). -/
theorem raise_fault_ne_zero (c : FaultCause) (s : State) : (raise c s).fault ≠ 0#2 := by
  cases c <;> simp [FaultCause.code]

/-- Settles O25, by the two outcomes of an instruction: a raise leaves `pc`, a completed one leaves
`fault` and puts `nextPc` into `pc`. -/
theorem pcAfterCycle : Obligations.PcAfterCycle := by
  intro s t i hi h
  obtain ⟨-, rfl⟩ | ⟨-, rfl⟩ := step_of_aboutTo hi h
  · exact ⟨fun _ => rfl, fun hf => absurd hf (raise_fault_ne_zero _ _)⟩
  · refine ⟨fun hf => absurd hi.1.1 hf, fun _ => ⟨fun hno => ?_, ?_⟩⟩
    · cases i with
      | jump x => exact absurd rfl (hno x)
      | load _ | store _ | add _ | sub _ | nop _ | halt _ => rfl
    · rintro x rfl
      exact ⟨fun h0 => if_pos (BitVec.eq_of_toNat_eq h0),
        fun h0 => if_neg fun he => h0 (congrArg BitVec.toNat he)⟩

/-- A runnable machine's `pc` is below `PROG_LEN`, so within the limit of 10_state.md R25 its increment
is that of numbers. -/
theorem pc_add_one_toNat {s : State} (hlen : s.program.length ≤ 4095) (hr : s.Runnable) :
    (s.pc + 1#12).toNat = s.pc.toNat + 1 := by
  obtain ⟨-, -, hpc⟩ := hr
  exact (BitVec.toNat_add ..).trans (Nat.mod_eq_of_lt (show s.pc.toNat + 1 < 2 ^ 12 by omega))

/-- Settles O26: every completed instruction but a taken JUMP increments `pc`, without a wrap by
`pc_add_one_toNat`, and a machine past its program is not runnable. -/
theorem pcNeverWraps : Obligations.PcNeverWraps := by
  intro s t hlen h
  refine ⟨fun hr hf => ?_, fun hpc => ?_⟩
  · have hinc := pc_add_one_toNat hlen hr
    obtain ⟨hstop, -⟩ | ⟨-, -, rfl⟩ | ⟨i, hi, ⟨-, rfl⟩ | ⟨-, rfl⟩⟩ := step_outcomes h
    · exact absurd hr hstop
    · exact absurd hf (raise_fault_ne_zero _ _)
    · exact absurd hf (raise_fault_ne_zero _ _)
    · cases i with
      | jump x =>
        by_cases h0 : s.acc = 0#s.xlen
        · exact .inr ⟨x, hi, congrArg BitVec.toNat h0, if_pos h0⟩
        · exact .inl ((congrArg BitVec.toNat (if_neg h0)).trans hinc)
      | load _ | store _ | add _ | sub _ | nop _ | halt _ => exact .inl hinc
  · have hstop : ¬ s.Runnable := fun hr => absurd hr.2.2 (Nat.not_lt.2 hpc)
    rw [step_of_not_runnable hstop h]

/-- A machine about to execute `i` is about to HALT exactly where `i` is a HALT. -/
theorem State.aboutTo_halt_iff {s : State} {i : Instr} (hi : s.aboutTo i) :
    (∃ x, s.aboutTo (.halt x)) ↔ ∃ x, i = .halt x :=
  exists_congr fun _ => ⟨State.aboutTo_unique hi, fun h => h ▸ hi⟩

theorem nextHalted_eq_true_iff {i : Instr} {s : State} :
    nextHalted i s = true ↔ s.halted = true ∨ ∃ x, i = .halt x := by
  cases i <;> simp [nextHalted]

theorem step_halted_iff {s t : State} (h : step s = .next t) :
    t.halted = true ↔ s.halted = true ∨ ∃ x, s.aboutTo (.halt x) := by
  obtain ⟨hr, -, rfl⟩ | ⟨-, hno, rfl⟩ | ⟨i, hi, hout⟩ := step_outcomes h
  · exact (or_iff_left fun ⟨_, hx⟩ => hr hx.1).symm
  · exact (or_iff_left fun ⟨_, hx⟩ => hno _ hx).symm
  · rw [State.aboutTo_halt_iff hi]
    obtain ⟨hor, rfl⟩ | ⟨-, rfl⟩ := hout
    · refine (or_iff_left ?_).symm
      rintro ⟨x, rfl⟩
      cases hor
    · exact nextHalted_eq_true_iff

/-- Settles O27, by `step_halted_iff`. -/
theorem haltedSetOnlyByHalt : Obligations.HaltedSetOnlyByHalt :=
  fun _ _ h => ⟨step_halted_iff h, rfl⟩

/-- Settles O28: the accumulator is another only after an instruction that completed with another
`nextAcc`. -/
theorem accWrittenOnlyByLoadAddSub : Obligations.AccWrittenOnlyByLoadAddSub := by
  intro s t h hne
  obtain ⟨-, -, rfl⟩ | ⟨-, -, rfl⟩ | ⟨i, hi, ⟨-, rfl⟩ | ⟨hor, rfl⟩⟩ := step_outcomes h
  · exact absurd rfl hne
  · exact absurd rfl hne
  · exact absurd rfl hne
  · cases i with
    | load a => exact ⟨a, by simpa [outOfRange] using hor, .inl hi⟩
    | add a => exact ⟨a, by simpa [outOfRange] using hor, .inr (.inl hi)⟩
    | sub a => exact ⟨a, by simpa [outOfRange] using hor, .inr (.inr hi)⟩
    | store _ | jump _ | nop _ | halt _ => exact absurd rfl hne

/-- A read after a write: the written value at the address, what was there elsewhere (20_memory.md R55,
R60). -/
theorem Memory.read_write {w : Nat} (m : Memory w) (a b : Nat) (v : BitVec w) :
    (m.write a v).read b = if b = a then v else m.read b := by
  unfold Memory.write
  split
  · rename_i hv
    rw [Memory.read_clear, hv]
  · split
    · rename_i hb
      rw [hb]
      exact Memory.read_insert_self _ a v fun c hc => (Memory.mem_clear.1 hc).2
    · rename_i hb
      rw [Memory.read_insert_other _ a b v hb, Memory.read_clear, if_neg hb]

/-- Settles O29: a cell is another only after a STORE that completed, and at its address. -/
theorem cellsWrittenOnlyByStore : Obligations.CellsWrittenOnlyByStore := by
  intro s t b h hne
  obtain ⟨-, -, rfl⟩ | ⟨-, -, rfl⟩ | ⟨i, hi, ⟨-, rfl⟩ | ⟨hor, rfl⟩⟩ := step_outcomes h
  · exact absurd rfl hne
  · exact absurd rfl hne
  · exact absurd rfl hne
  · cases i with
    | store a =>
      have hb : b = dataAddress a := by
        by_contra hb
        refine hne (congrArg BitVec.toNat ?_)
        exact (Memory.read_write ..).trans (if_neg hb)
      exact ⟨a, hi, hb.symm, by simpa [outOfRange, hb] using hor⟩
    | load _ | add _ | sub _ | jump _ | nop _ | halt _ => exact absurd rfl hne

/-! ## The machine's conditions -/

theorem condition_eq_halted_iff (s : State) :
    s.condition = .halted ↔ s.fault = 0#2 ∧ s.halted = true := by
  unfold State.condition
  split_ifs <;> simp_all

theorem condition_eq_offEnd_iff (s : State) :
    s.condition = .offEnd ↔ s.fault = 0#2 ∧ s.halted = false ∧ s.program.length ≤ s.pc.toNat := by
  unfold State.condition
  split_ifs <;> simp_all

theorem condition_eq_faulted_iff (s : State) : s.condition = .faulted ↔ s.fault ≠ 0#2 := by
  unfold State.condition
  split_ifs <;> simp_all

/-- HALT never raises (43_control.md R133). -/
theorem step_fault_of_aboutTo_halt {s t : State} {x : Operand} (hx : s.aboutTo (.halt x))
    (h : step s = .next t) : t.fault = 0#2 := by
  obtain ⟨hor, -⟩ | ⟨-, rfl⟩ := step_of_aboutTo hx h
  · cases hor
  · exact hx.1.1

theorem step_condition_halted_iff {s t : State} (hr : s.Runnable) (h : step s = .next t) :
    t.condition = .halted ↔ ∃ x, s.aboutTo (.halt x) := by
  have hhalted : t.halted = true ↔ ∃ x, s.aboutTo (.halt x) := by
    rw [step_halted_iff h, hr.2.1, or_iff_right Bool.false_ne_true]
  rw [condition_eq_halted_iff, hhalted]
  exact and_iff_right_of_imp fun ⟨_, hx⟩ => step_fault_of_aboutTo_halt hx h

theorem hostReset_condition (s : State) :
    (hostReset s).condition = if s.program.length = 0 then .offEnd else .runnable := by
  split
  · rename_i hp
    exact (condition_eq_offEnd_iff _).2 ⟨rfl, rfl, hp.le⟩
  · rename_i hp
    exact (condition_eq_runnable_iff _).2 ⟨rfl, rfl, Nat.pos_of_ne_zero hp⟩

/-- Settles O24, by the predicate of each condition and what a step does to a stopped and to a
runnable machine. -/
theorem machineConditions : Obligations.MachineConditions := by
  intro s
  refine ⟨condition_eq_runnable_iff s, condition_eq_halted_iff s, condition_eq_offEnd_iff s,
    condition_eq_faulted_iff s, fun t hc h => ?_, fun t hc h => ?_, hostReset_condition s⟩
  · rw [step_of_not_runnable (fun hr => hc ((condition_eq_runnable_iff s).2 hr)) h]
  · exact step_condition_halted_iff ((condition_eq_runnable_iff s).1 hc) h

/-! ## Signed arithmetic -/

/-- Settles O38: without signed overflow the wrapping sum and difference are the exact ones. -/
theorem signedArithmeticWithoutOverflow : Obligations.SignedArithmeticWithoutOverflow := by
  intro a s _ ha
  refine ⟨fun hlo hhi => ?_, fun hlo hhi => ?_⟩
  · unfold State.accInt at hlo hhi
    have hov : ¬ s.acc.saddOverflow (s.mem.read a.toNat) = true := by
      simp only [BitVec.saddOverflow, Bool.or_eq_true, decide_eq_true_eq]
      omega
    refine ⟨_, (exec_eq (.add a) s).trans (congrArg _ (executed_of_inRange ?_)),
      BitVec.toInt_add_of_not_saddOverflow hov⟩
    simpa [outOfRange] using ha
  · unfold State.accInt at hlo hhi
    have hov : ¬ s.acc.ssubOverflow (s.mem.read a.toNat) = true := by
      simp only [BitVec.ssubOverflow, Bool.or_eq_true, decide_eq_true_eq]
      omega
    refine ⟨_, (exec_eq (.sub a) s).trans (congrArg _ (executed_of_inRange ?_)),
      BitVec.toInt_sub_of_not_ssubOverflow hov⟩
    simpa [outOfRange] using ha

/-! ## The invariant at the start and under the host's operations -/

theorem Memory.read_ofCells {w : Nat} (m0 : Nat → BitVec w) (n a : Nat) :
    (Memory.ofCells m0 n).read a = if a < n then m0 a else 0#w := by
  induction n with
  | zero => rfl
  | succ n ih =>
    rw [Memory.ofCells, Memory.read_write, ih]
    by_cases ha : a = n
    · simp [ha]
    · rw [if_neg ha]
      exact if_congr (by omega) rfl rfl

/-- A memory that lists no cell is canonical and inside any size. -/
theorem Memory.nil_ok {w : Nat} (n : Nat) :
    Memory.wf ([] : Memory w) ∧ Memory.below ([] : Memory w) n :=
  ⟨⟨List.Pairwise.nil, nofun⟩, nofun⟩

theorem construct_instanceOk {p : Params} (h : p.wellFormed = true) : (construct p).instanceOk := by
  have hp : 1 ≤ p.xlen ∧ p.memSize ≤ Config.maxMemSize ∧ p.program.length ≤ Config.maxProgLen := by
    simpa [Params.wellFormed, and_assoc] using h
  exact hp

theorem launch_inv {p : Params} (m0 : Nat → BitVec p.xlen) (h : p.wellFormed = true) :
    (launch p m0).Inv :=
  ⟨construct_instanceOk h, ⟨Memory.ofCells_wf m0 p.memSize, Memory.ofCells_below m0 p.memSize⟩,
    .inl rfl⟩

/-- Settles O32: none of these states records a fault that an earlier one did not, and each memory is
empty, the launch memory, or a write to an existing cell. -/
theorem resetAndConstructMeetInv : Obligations.ResetAndConstructMeetInv := by
  refine ⟨?_, fun p h => ?_, fun p m0 h => ?_, ?_, ?_⟩
  · exact ⟨by decide, Memory.nil_ok 16, .inl rfl⟩
  · exact ⟨construct_instanceOk h, Memory.nil_ok p.memSize, .inl rfl⟩
  · exact ⟨launch_inv m0 h, Memory.read_ofCells m0 p.memSize⟩
  · rintro s a v t ⟨hinst, hmem, hfault⟩ hpre
    obtain ⟨ha, rfl⟩ := preload_eq_some_iff.1 hpre
    exact ⟨hinst, ⟨Memory.write_wf a v hmem.1, Memory.write_below v hmem.2 ha⟩, hfault⟩
  · rintro s ⟨hinst, -, -⟩
    exact ⟨hinst, Memory.nil_ok s.memSize, .inl rfl⟩

end Sys2Proof.Machine

namespace Sys2Proof.Machine

/-! ## The word fetched and the cycle counted -/

/-- The word at `pc` of a runnable machine exists (20_memory.md R59). -/
theorem State.Runnable.exists_word {s : State} (h : s.Runnable) :
    ∃ w, s.program[s.pc.toNat]? = some w := by
  obtain ⟨-, -, hpc⟩ := h
  exact ⟨_, List.getElem?_eq_getElem hpc⟩

theorem step_next_of_runnable {s : State} (h : s.Runnable) : ∃ t, step s = .next t := by
  rw [step_of_runnable ((condition_eq_runnable_iff s).2 h)]
  exact cycle_next s

/-- A cycle is counted whether its word is unknown, its access is out of range, or it completes
(10_state.md R31). -/
theorem step_cycleCount_of_runnable {s t : State} (hr : s.Runnable) (h : step s = .next t) :
    t.cycleCount = s.cycleCount + 1#64 := by
  obtain ⟨hstop, -⟩ | ⟨-, -, rfl⟩ | ⟨i, -, ⟨-, rfl⟩ | ⟨-, rfl⟩⟩ := step_outcomes h
  · exact absurd hr hstop
  · rfl
  · rfl
  · rfl

/-- Settles O23: `pc` is inside the program, a cycle always answers a next state, and each of its
outcomes counts it. -/
theorem runnableCompletesAndCounts : Obligations.RunnableCompletesAndCounts := by
  intro s hr
  obtain ⟨t, ht⟩ := step_next_of_runnable hr
  refine ⟨hr.exists_word, t, ht, ?_⟩
  rw [step_cycleCount_of_runnable hr ht]
  exact BitVec.toNat_add ..

/-! ## Reading written cells -/

/-- Settles O34, by the two cases of `Memory.read_write`. -/
theorem readAfterWrite : Obligations.ReadAfterWrite := fun _ m a b v =>
  ⟨(m.read_write a a v).trans (if_pos rfl), fun hb => (m.read_write a b v).trans (if_neg hb)⟩

/-- `preload` has no result exactly for a cell that does not exist (log 18). -/
theorem preload_eq_none_iff {s : State} {a : Nat} {v : BitVec s.xlen} :
    preload s a v = none ↔ s.memSize ≤ a := by
  simp only [Option.eq_none_iff_forall_ne_some, ne_eq, preload_eq_some_iff]
  exact ⟨fun h => Nat.not_lt.1 fun ha => h _ ⟨ha, rfl⟩, fun hm _ ⟨ha, _⟩ => Nat.not_lt.2 hm ha⟩

/-- Settles O48, by when `preload` has a result and what the written memory reads. -/
theorem preloadSetsOneCell : Obligations.PreloadSetsOneCell := fun s a v =>
  ⟨fun ha => ⟨preload_eq_some_iff.2 ⟨ha, rfl⟩, fun b => s.mem.read_write a b v⟩,
    preload_eq_none_iff.2⟩

end Sys2Proof.Machine

namespace Sys2Proof.Machine

/-! ## Encoding and decoding -/

theorem opcodeOf_toNat (w : InstrWord) : (opcodeOf w).toNat = w.toNat / 4096 := by
  rw [opcodeOf, BitVec.extractLsb'_toNat, Nat.shiftRight_eq_div_pow]
  omega

theorem operandOf_toNat (w : InstrWord) : (operandOf w).toNat = w.toNat % 4096 :=
  BitVec.extractLsb'_toNat ..

/-- The two fields of a word determine it (30_encoding.md R73). -/
theorem eq_of_fields_eq {v w : InstrWord} (hopcode : opcodeOf v = opcodeOf w)
    (hoperand : operandOf v = operandOf w) : v = w := by
  have hquot := congrArg BitVec.toNat hopcode
  have hrem := congrArg BitVec.toNat hoperand
  rw [opcodeOf_toNat, opcodeOf_toNat] at hquot
  rw [operandOf_toNat, operandOf_toNat] at hrem
  exact BitVec.eq_of_toNat_eq (by omega)

/-- A word decodes to an instruction exactly when it has the instruction's two fields. -/
theorem decodeWord_eq_ok_iff {w : InstrWord} {i : Instr} :
    decodeWord w = .ok i ↔ opcodeOf w = i.kind.opcode ∧ operandOf w = i.operand := by
  constructor
  · intro h
    exact ⟨opcodeOf_of_decodeWord h, (decodeWord_ok h).2⟩
  · rintro ⟨hopcode, hoperand⟩
    rw [decodeWord, hopcode, kindOf_opcode, hoperand]
    exact congrArg Except.ok (kind_withOperand i)

/-- A word is refused exactly when its opcode is 7 to 15 (30_encoding.md R77). -/
theorem exists_decodeWord_error_iff {w : InstrWord} :
    (∃ e, decodeWord w = .error e) ↔ 7 ≤ (opcodeOf w).toNat := by
  constructor
  · rintro ⟨e, h⟩
    exact decodeWord_error h
  · intro h
    rw [decodeWord, (kindOf_eq_none_iff _).2 h]
    exact ⟨_, rfl⟩

/-- A word decodes exactly when it is not refused. -/
theorem exists_decodeWord_ok_iff {w : InstrWord} :
    (∃ i, decodeWord w = .ok i) ↔ ¬ 7 ≤ (opcodeOf w).toNat := by
  rw [← exists_decodeWord_error_iff]
  cases decodeWord w <;> simp

/-- Settles O1: the word of `i` has the fields of `i`. -/
theorem decodeEncodeAgree : Obligations.DecodeEncodeAgree := fun i =>
  decodeWord_eq_ok_iff.2 ⟨opcodeOf_encode i, operandOf_encode i⟩

/-- Settles O2: a word that decodes to `i` has the two fields that the word of `i` has. -/
theorem encodeDecodeAgree : Obligations.EncodeDecodeAgree := by
  intro w i h
  obtain ⟨hopcode, hoperand⟩ := decodeWord_eq_ok_iff.1 h
  exact eq_of_fields_eq ((opcodeOf_encode i).trans hopcode.symm)
    ((operandOf_encode i).trans hoperand.symm)

/-- Settles O3: the fields are quotient and remainder by 4096, so a word is made up of them. -/
theorem wordIsOpcodeThenOperand : Obligations.WordIsOpcodeThenOperand := by
  refine ⟨fun i => ?_, fun w => ⟨opcodeOf_toNat w, operandOf_toNat w⟩⟩
  rw [← opcodeOf_encode, ← operandOf_encode, opcodeOf_toNat, operandOf_toNat]
  omega

/-! ## The opcode map -/

/-- The mask of the opcode map keeps the opcode field. -/
theorem opcodeOf_and_mask (w : InstrWord) : opcodeOf (w &&& 0xF000) = opcodeOf w := by
  rw [opcodeOf, BitVec.extractLsb'_and]
  exact BitVec.and_allOnes

/-- The mask of the opcode map clears the operand field. -/
theorem operandOf_and_mask (w : InstrWord) : operandOf (w &&& 0xF000) = 0 := by
  rw [operandOf, BitVec.extractLsb'_and]
  exact BitVec.and_zero

/-- A row covers exactly the words with the opcode of its kind (30_encoding.md R75). -/
theorem covers_iff {r : OpcodeRow} (hr : r ∈ opcodeTable) (w : InstrWord) :
    r.covers w = true ↔ opcodeOf w = r.kind.opcode := by
  have hrows : ∀ r ∈ opcodeTable,
      r.mask = 0xF000 ∧ opcodeOf r.bits = r.kind.opcode ∧ operandOf r.bits = 0 := by decide
  obtain ⟨hmask, hopcode, hoperand⟩ := hrows r hr
  rw [OpcodeRow.covers, beq_iff_eq, hmask, ← hopcode]
  constructor
  · intro h
    rw [← h, opcodeOf_and_mask]
  · intro h
    exact eq_of_fields_eq ((opcodeOf_and_mask w).trans h)
      ((operandOf_and_mask w).trans hoperand.symm)

/-- Every kind has a row. -/
theorem exists_row (k : Kind) : ∃ r ∈ opcodeTable, r.kind = k := by
  cases k <;> decide

/-- The operand field is the low 12 bits of the word. -/
theorem operandOf_eq_ofNat (w : InstrWord) : operandOf w = BitVec.ofNat 12 w.toNat :=
  BitVec.eq_of_toNat_eq (by rw [operandOf_toNat, BitVec.toNat_ofNat])

/-- Settles O4: a row covers exactly the words with the opcode of its kind, and every kind has a row,
so a word that decodes is covered. -/
theorem decodeFollowsOpcodeMap : Obligations.DecodeFollowsOpcodeMap := by
  refine ⟨by decide, by decide, fun w => ⟨fun r hr hcov => ?_, fun hnone => ?_⟩⟩
  · rw [decodeWord_eq_ok_iff, withOperand_kind, withOperand_operand, operandOf_eq_ofNat]
    exact ⟨(covers_iff hr w).1 hcov, rfl⟩
  · have hopcode : 7 ≤ (opcodeOf w).toNat := by
      by_contra hlt
      obtain ⟨i, hi⟩ := exists_decodeWord_ok_iff.2 hlt
      obtain ⟨r, hr, hk⟩ := exists_row i.kind
      have hcov := (covers_iff hr w).2 (hk ▸ opcodeOf_of_decodeWord hi)
      exact absurd (hnone r hr) (by simp [hcov])
    refine ⟨?_, exists_decodeWord_error_iff.2 hopcode⟩
    rw [opcodeOf_toNat] at hopcode
    omega

/-- Settles O5: whether a word decodes, and to which kind, is a condition on its opcode. -/
theorem decodeByOpcodeAlone : Obligations.DecodeByOpcodeAlone := by
  intro w
  rw [exists_decodeWord_ok_iff]
  refine ⟨(Decidable.em _).symm, fun ⟨hlt, hge⟩ => hlt hge, fun v i hv hi => ?_⟩
  refine ⟨i.kind.withOperand (operandOf v), decodeWord_eq_ok_iff.2 ⟨?_, ?_⟩, withOperand_kind _ _⟩
  · rw [withOperand_kind, hv, opcodeOf_of_decodeWord hi]
  · exact (withOperand_operand _ _).symm

/-- Settles O6, by evaluating the decoder on the words of 95_test_vectors.md. -/
theorem encodingVectors : Obligations.EncodingVectors := by
  unfold Obligations.EncodingVectors
  decide

/-! ## Representable operands -/

theorem wellFormed_iff (i : AbstractInstr) :
    i.wellFormed = true ↔ 0 ≤ i.operand ∧ i.operand ≤ 4095 := by
  simp [AbstractInstr.wellFormed]

/-- A representable abstract instruction is the instruction of its kind with its operand. -/
theorem toInstr_of_wellFormed {i : AbstractInstr} (h : i.wellFormed = true) :
    i.toInstr = some (i.kind.withOperand (BitVec.ofNat 12 i.operand.toNat)) := by
  rw [AbstractInstr.toInstr, if_pos h]
  cases i.kind <;> rfl

theorem toInstr_of_not_wellFormed {i : AbstractInstr} (h : ¬ i.wellFormed = true) :
    i.toInstr = none := if_neg h

/-- Settles O7: an operand of 0 to 4095 is its own remainder by 4096, so its 12 bits keep it; any other
is not well formed. -/
theorem onlyUnsignedOperandsRepresentable : Obligations.OnlyUnsignedOperandsRepresentable := by
  refine fun i => ⟨fun hrange => ?_, fun hout => ?_⟩
  · refine ⟨_, toInstr_of_wellFormed ((wellFormed_iff i).2 hrange), withOperand_kind _ _, ?_⟩
    rw [withOperand_operand, BitVec.toNat_ofNat]
    omega
  · refine toInstr_of_not_wellFormed fun h => ?_
    obtain ⟨hlow, hhigh⟩ := (wellFormed_iff i).1 h
    omega

/-! ## Assembly text -/

theorem digitValue_ofNat {d : Nat} (h : d < 10) : digitValue (Char.ofNat (48 + d)) = some d := by
  have hchar : (Char.ofNat (48 + d)).toNat = 48 + d := by
    rw [Char.toNat_ofNat, if_pos (.inl (by omega))]
  rw [digitValue, hchar, if_pos (by omega), Nat.add_sub_cancel_left]

/-- The numeral of a number below 10000 has its value: in each of the four lengths every character is
a digit, and Horner's rule gives the number back. -/
theorem numeralValue_numeralOf {n : Nat} (h : n < 10000) : numeralValue (numeralOf n) = some n := by
  have hdigit (k : Nat) : digitValue (Char.ofNat (48 + k % 10)) = some (k % 10) :=
    digitValue_ofNat (Nat.mod_lt k (by decide))
  unfold numeralOf
  split_ifs <;> simp [numeralValue, hdigit] <;> omega

theorem kindOfMnemonic_mnemonicChars (k : Kind) : kindOfMnemonic (mnemonicChars k) = some k := by
  cases k <;> rfl

/-- No mnemonic contains a space. -/
theorem ne_space_of_mem_mnemonicChars (k : Kind) : ∀ c ∈ mnemonicChars k, (c != ' ') = true := by
  cases k <;> simp [mnemonicChars]

/-- A mnemonic, one space and a numeral of a representable operand is an instruction
(30_encoding.md R81). -/
theorem parseAsm_of_numeral (k : Kind) {digits : List Char} {n : Nat}
    (hvalue : numeralValue digits = some n) (hn : n ≤ 4095) :
    parseAsm (mnemonicChars k ++ ' ' :: digits) = some (k.withOperand (BitVec.ofNat 12 n)) := by
  have hspace := ne_space_of_mem_mnemonicChars k
  simp [parseAsm, List.takeWhile_append_of_pos hspace, List.dropWhile_append_of_pos hspace,
    kindOfMnemonic_mnemonicChars, hvalue, hn]

/-- Settles O8: the text of an instruction is its mnemonic and the numeral of its operand; a mnemonic
alone is evaluated, one kind after another. -/
theorem assemblyReadsBack : Obligations.AssemblyReadsBack := by
  refine ⟨fun i => ?_, rfl, rfl, fun k hnop hhalt => ?_⟩
  · have hlt : i.operand.toNat < 4096 := i.operand.isLt
    rw [asmOf, parseAsm_of_numeral i.kind (numeralValue_numeralOf (by omega)) (by omega),
      BitVec.ofNat_toNat, BitVec.setWidth_eq, kind_withOperand]
  · cases k with
    | nop => exact absurd rfl hnop
    | halt => exact absurd rfl hhalt
    | load | store | add | sub | jump => rfl

end Sys2Proof.Machine

namespace Sys2Proof.Machine

/-! ## One step -/

/-- The step of a machine about to execute `i` as an equation of outcomes, in the order of
40_execution_cycle.md R91: count, fetch, decode, execute. -/
theorem step_eq_exec_of_aboutTo {s : State} {i : Instr} (h : s.aboutTo i) :
    step s = exec i (countCycle s) := by
  obtain ⟨hr, w, hw, hd⟩ := h
  rw [step_of_runnable ((condition_eq_runnable_iff s).2 hr), cycle, Option.mem_def.1 hw]
  simp only [hd]

/-- Settles O19, by `step_eq_exec_of_aboutTo`. -/
theorem stepRunsDecodedInstruction : Obligations.StepRunsDecodedInstruction :=
  fun _ _ _ hr hw hd => step_eq_exec_of_aboutTo (State.aboutTo_of_word hr hw hd)

/-- A machine that is neither runnable nor Faulted stays as it is (40_execution_cycle.md R99). -/
theorem step_eq_self_of_not_runnable {s : State} (hf : s.fault = 0#2) (hr : ¬ s.Runnable) :
    step s = .next s := by
  unfold step stepOnce
  cases hc : s.condition with
  | runnable => exact absurd ((condition_eq_runnable_iff s).1 hc) hr
  | halted | offEnd => rfl
  | faulted => exact absurd hf ((condition_eq_faulted_iff s).1 hc)

theorem step_of_faulted {s : State} (hf : s.fault ≠ 0#2) :
    step s = .fault (faultOfCode s.fault) := by
  unfold step stepOnce
  rw [(condition_eq_faulted_iff s).2 hf]

/-- Settles O22: `halted` and a `pc` past the program each contradict the loop predicate, and each
nonzero value of `fault` is named. -/
theorem notRunnableExecutesNoCycle : Obligations.NotRunnableExecutesNoCycle := by
  have hfaulted {s : State} {c : FaultCode} (hc : c ≠ 0#2) (hf : s.fault = c) :
      step s = .fault (faultOfCode c) := hf ▸ step_of_faulted (hf ▸ hc)
  refine fun s => ⟨fun ⟨hf, hh⟩ => ?_, fun ⟨hf, _, hp⟩ => ?_, hfaulted (by decide),
    hfaulted (by decide), hfaulted (by decide)⟩
  · exact step_eq_self_of_not_runnable hf fun hr => Bool.false_ne_true (hr.2.1.symm.trans hh)
  · exact step_eq_self_of_not_runnable hf fun hr => Nat.not_lt.2 hp hr.2.2

/-! ## Cycle after cycle -/

theorem afterCycles_add (j k : Nat) (s : State) :
    afterCycles (j + k) s = afterCycles k (afterCycles j s) := by
  induction j generalizing s with
  | zero => rw [Nat.zero_add, afterCycles]
  | succ j ih =>
    by_cases hc : s.condition = .runnable
    · obtain ⟨t, ht⟩ := cycle_next s
      rw [Nat.succ_add, afterCycles_of_runnable _ hc ht, afterCycles_of_runnable _ hc ht, ih]
    · rw [afterCycles_of_stopped _ hc, afterCycles_of_stopped _ hc, afterCycles_of_stopped _ hc]

/-- One more iteration on a runnable machine is one more step. -/
theorem step_afterCycles {k : Nat} {s : State} (h : (afterCycles k s).condition = .runnable) :
    step (afterCycles k s) = .next (afterCycles (k + 1) s) := by
  obtain ⟨t, ht⟩ := cycle_next (afterCycles k s)
  rw [step_of_runnable h, ht, afterCycles_add, afterCycles_of_runnable 0 h ht, afterCycles]

/-- While the machine stays runnable, each cycle of a `run` uses one unit of fuel
(40_execution_cycle.md R101). -/
theorem run_add_eq_run_afterCycles {k : Nat} (n : Nat) {s : State}
    (h : ∀ j < k, (afterCycles j s).condition = .runnable) :
    run (k + n) s = run n (afterCycles k s) := by
  induction k generalizing n with
  | zero => rw [Nat.zero_add, afterCycles]
  | succ k ih =>
    have hk := h k (Nat.lt_succ_self k)
    have hcycle := (step_of_runnable hk).symm.trans (step_afterCycles hk)
    rw [Nat.add_assoc, Nat.add_comm 1 n, ih _ fun j hj => h j (Nat.lt_succ_of_lt hj),
      run_of_runnable n hk hcycle]

/-- A `run` whose fuel is used up while the machine is runnable has no final state. -/
theorem run_eq_none_of_runnable {n : Nat} {s : State}
    (h : ∀ j ≤ n, (afterCycles j s).condition = .runnable) : run n s = none :=
  (run_add_eq_run_afterCycles 0 fun j hj => h j (Nat.le_of_lt hj)).trans
    (run_zero_of_runnable (h n le_rfl))

/-- A `run` with fuel for the cycles up to the first state that is not runnable ends there. -/
theorem run_eq_some_of_stopped {k n : Nat} {s : State}
    (h : ∀ j < k, (afterCycles j s).condition = .runnable)
    (hstop : (afterCycles k s).condition ≠ .runnable) (hn : k ≤ n) :
    run n s = some (endRun (afterCycles k s)) := by
  obtain ⟨m, rfl⟩ := Nat.exists_eq_add_of_le hn
  rw [run_add_eq_run_afterCycles m h, run_of_stopped m hstop]

/-- A `run` has a final state exactly where its fuel reaches a state that is not runnable, and that
state, ended, is the final one: the first stop is the least number of cycles that leads to one. -/
theorem run_eq_some_iff {n : Nat} {s u : State} :
    run n s = some u ↔ ∃ k ≤ n, (∀ j < k, (afterCycles j s).condition = .runnable) ∧
      (afterCycles k s).condition ≠ .runnable ∧ u = endRun (afterCycles k s) := by
  constructor
  · intro hrun
    have hex : ∃ k, k ≤ n ∧ (afterCycles k s).condition ≠ .runnable := by
      by_contra hno
      push Not at hno
      cases (run_eq_none_of_runnable hno).symm.trans hrun
    obtain ⟨hle, hstop⟩ := Nat.find_spec hex
    have hbefore : ∀ j < Nat.find hex, (afterCycles j s).condition = .runnable := fun j hj =>
      not_not.1 fun hc => Nat.find_min hex hj ⟨hj.le.trans hle, hc⟩
    exact ⟨_, hle, hbefore, hstop,
      Option.some.inj (hrun.symm.trans (run_eq_some_of_stopped hbefore hstop hle))⟩
  · rintro ⟨k, hle, hbefore, hstop, rfl⟩
    exact run_eq_some_of_stopped hbefore hstop hle

/-! ## The end of a `run` -/

/-- The end of a `run` writes `elapsed_time`, the count of its draws, and the summary where no fault is
recorded (45_interfaces_and_trace.md R159). -/
theorem endRun_eq (s : State) : endRun s = { s with
    elapsedTime := Config.elapsedTime s.elapsedDraws
    elapsedDraws := s.elapsedDraws + 1
    trace := if s.fault = 0#2 then
        s.trace ++ [.summary s.cycleCount (Config.elapsedTime s.elapsedDraws) s.acc s.pc
          (s.mem.dump s.memSize)]
      else s.trace } := by
  by_cases hf : s.fault = 0#2
  · rw [endRun_of_safe hf, if_pos hf]
    rfl
  · rw [endRun_of_faulted hf, if_neg hf]
    rfl

theorem endRun_architectural (s : State) : (endRun s).architectural = s.architectural := by
  rw [endRun_eq]
  rfl

/-- Settles O45, by `run_of_stopped` and what the end of a `run` writes. -/
theorem runOfStoppedMachine : Obligations.RunOfStoppedMachine := fun n s hr =>
  ⟨_, (run_of_stopped n (mt (condition_eq_runnable_iff s).1 hr)).trans
    (congrArg some (endRun_eq s))⟩

/-- Settles O46: fuel that is used up on runnable states gives no final state, and the final states are
those of `run_eq_some_iff`, in which fuel is a bound only. -/
theorem runIsLimitedByFuelOnly : Obligations.RunIsLimitedByFuelOnly := by
  refine ⟨fun s k h => ⟨fun n hn => ?_, fun hstop => ?_⟩, fun n m s u hrun hle => ?_⟩
  · exact run_eq_none_of_runnable fun j hj => h j (Nat.lt_of_le_of_lt hj hn)
  · exact ⟨_, fun n hn => run_eq_some_of_stopped h hstop hn, endRun_architectural _⟩
  · obtain ⟨k, hk, hend⟩ := run_eq_some_iff.1 hrun
    exact run_eq_some_iff.2 ⟨k, hk.trans hle, hend⟩

/-! ## Counts and events of a `run` -/

/-- A cycle that leaves `fault` 0 emits one event, a cycle that raises none
(60_exceptions.md R174). -/
theorem step_trace_length_of_runnable {s t : State} (hr : s.Runnable) (h : step s = .next t) :
    t.trace.length = s.trace.length + if t.fault = 0#2 then 1 else 0 := by
  obtain ⟨hstop, -⟩ | ⟨-, -, rfl⟩ | ⟨i, -, ⟨-, rfl⟩ | ⟨-, rfl⟩⟩ := step_outcomes h
  · exact absurd hr hstop
  · rw [if_neg (raise_fault_ne_zero _ _)]
    rfl
  · rw [if_neg (raise_fault_ne_zero _ _)]
    rfl
  · rw [if_pos (show (completed i (countCycle s)).fault = 0#2 from hr.1)]
    exact List.length_append

theorem afterCycles_cycleCount {k : Nat} {s : State}
    (h : ∀ j < k, (afterCycles j s).condition = .runnable) :
    (afterCycles k s).cycleCount = s.cycleCount + BitVec.ofNat 64 k := by
  induction k with
  | zero => exact (BitVec.add_zero _).symm
  | succ k ih =>
    have hk := h k (Nat.lt_succ_self k)
    rw [step_cycleCount_of_runnable ((condition_eq_runnable_iff _).1 hk) (step_afterCycles hk),
      ih fun j hj => h j (Nat.lt_succ_of_lt hj), BitVec.ofNat_add, BitVec.add_assoc]

/-- Only the last of the cycles can have raised, since the machine was runnable after the others. -/
theorem afterCycles_trace_length {k : Nat} {s : State}
    (h : ∀ j < k, (afterCycles j s).condition = .runnable) :
    (afterCycles k s).trace.length =
      s.trace.length + if (afterCycles k s).fault = 0#2 ∨ k = 0 then k else k - 1 := by
  induction k with
  | zero => rw [afterCycles, if_pos (.inr rfl), Nat.add_zero]
  | succ k ih =>
    have hk := h k (Nat.lt_succ_self k)
    have hr := (condition_eq_runnable_iff _).1 hk
    rw [step_trace_length_of_runnable hr (step_afterCycles hk),
      ih fun j hj => h j (Nat.lt_succ_of_lt hj), if_pos (.inl hr.1)]
    simp only [Nat.add_one_ne_zero, or_false, Nat.add_sub_cancel]
    split_ifs <;> rfl

/-- Settles O44: `run_eq_some_iff` gives the cycles of a `run` that ends, `endRun_eq` what its end
writes, and the counts follow by induction over the cycles. -/
theorem runEndsWithSummary : Obligations.RunEndsWithSummary := by
  refine ⟨fun n s u hrun => ?_, fun s k n h hstop hn => ?_⟩
  · obtain ⟨k, hk, h, hstop, rfl⟩ := run_eq_some_iff.1 hrun
    exact ⟨k, _, _, hk, rfl, hstop, fun j hj => ⟨h j hj, step_afterCycles (h j hj)⟩,
      afterCycles_cycleCount h, afterCycles_trace_length h, endRun_eq _⟩
  · exact ⟨_, (run_eq_some_of_stopped h hstop hn).trans (congrArg some (endRun_eq _))⟩

/-! ## The JUMP to itself -/

/-- The state that `k` taken JUMPs to the index `pc` would leave: `k` more counts and `k` more
events. -/
def withSelfJumps (k : Nat) (s : State) : State :=
  { s with
    cycleCount := s.cycleCount + BitVec.ofNat 64 k
    trace := s.trace ++ List.replicate k (.step .jump s.pc (.jump true)) }

theorem withSelfJumps_zero (s : State) : withSelfJumps 0 s = s := by
  simp [withSelfJumps]

/-- One JUMP more adds its count and its event. -/
theorem withSelfJumps_succ (k : Nat) (s : State) : withSelfJumps (k + 1) s =
    { s with
      cycleCount := s.cycleCount + BitVec.ofNat 64 k + 1#64
      trace := s.trace ++ List.replicate k (.step .jump s.pc (.jump true)) ++
        [.step .jump s.pc (.jump true)] } := by
  rw [withSelfJumps, BitVec.ofNat_add, ← BitVec.add_assoc, List.replicate_succ',
    ← List.append_assoc]

/-- A taken JUMP to `pc` leaves `pc` (43_control.md R131). -/
theorem completed_jump_withSelfJumps (k : Nat) {s : State} (h0 : s.acc = 0#s.xlen) :
    completed (.jump s.pc) (countCycle (withSelfJumps k s)) = withSelfJumps (k + 1) s := by
  have hpc : nextPc (.jump s.pc) (countCycle (withSelfJumps k s)) = s.pc := if_pos h0
  have hdetail : detailOf (.jump s.pc) (countCycle (withSelfJumps k s)) = .jump true :=
    congrArg StepDetail.jump (decide_eq_true h0)
  rw [completed, hpc, hdetail, withSelfJumps_succ]
  rfl

/-- The counts and the events are not read by what a machine is about to execute, so it jumps again. -/
theorem step_withSelfJumps (k : Nat) {s : State} (hj : s.aboutTo (.jump s.pc))
    (h0 : s.acc = 0#s.xlen) : step (withSelfJumps k s) = .next (withSelfJumps (k + 1) s) := by
  have hagain : (withSelfJumps k s).aboutTo (.jump s.pc) := hj
  rw [step_eq_exec_of_aboutTo hagain, exec_eq, executed_of_inRange rfl,
    completed_jump_withSelfJumps k h0]

theorem withSelfJumps_condition (k : Nat) {s : State} (hr : s.Runnable) :
    (withSelfJumps k s).condition = .runnable := (condition_eq_runnable_iff s).2 hr

theorem afterCycles_eq_withSelfJumps (k : Nat) {s : State} (hj : s.aboutTo (.jump s.pc))
    (h0 : s.acc = 0#s.xlen) : afterCycles k s = withSelfJumps k s := by
  induction k with
  | zero => rw [withSelfJumps_zero, afterCycles]
  | succ k ih =>
    have hk : (afterCycles k s).condition = .runnable := ih ▸ withSelfJumps_condition k hj.1
    refine Host.Outcome.next.inj ((step_afterCycles hk).symm.trans ?_)
    rw [ih, step_withSelfJumps k hj h0]

/-- Settles O40, by `afterCycles_eq_withSelfJumps`, an induction over the cycles: the machine stays
runnable, so every fuel is used up. -/
theorem jumpToItselfHangs : Obligations.JumpToItselfHangs := by
  intro s k hj h0
  have hafter (j : Nat) : afterCycles j s = withSelfJumps j s :=
    afterCycles_eq_withSelfJumps j hj (BitVec.eq_of_toNat_eq h0)
  have hrunnable (j : Nat) : (afterCycles j s).condition = .runnable :=
    (hafter j).symm ▸ withSelfJumps_condition j hj.1
  exact ⟨hrunnable k, hafter k, run_eq_none_of_runnable fun j _ => hrunnable j⟩

end Sys2Proof.Machine

namespace Sys2Proof.Machine

/-! ## Instructions that access data memory -/

/-- An instruction either raises, out of range, or completes. -/
theorem exec_outcomes {i : Instr} {s t : State} (h : exec i s = .next t) :
    (outOfRange i s = true ∧ t = raise .addressOutOfRange s) ∨
      (outOfRange i s = false ∧ t = completed i s) := by
  obtain rfl : executed i s = t := Host.Outcome.next.inj ((exec_eq i s).symm.trans h)
  cases hor : outOfRange i s
  · exact .inr ⟨rfl, executed_of_inRange hor⟩
  · exact .inl ⟨rfl, executed_of_outOfRange hor⟩

theorem exec_of_inRange {i : Instr} {s : State} (h : outOfRange i s = false) :
    exec i s = .next (completed i s) :=
  (exec_eq i s).trans (congrArg _ (executed_of_inRange h))

theorem exec_of_outOfRange {i : Instr} {s : State} (h : outOfRange i s = true) :
    exec i s = .next (raise .addressOutOfRange s) :=
  (exec_eq i s).trans (congrArg _ (executed_of_outOfRange h))

/-- What an instruction that accesses the cell `dataAddress a` does, executed and as a whole cycle:
it completes where the cell exists and raises where it does not (20_memory.md R57). -/
theorem exec_and_step_of_access {i : Instr} {a : Operand} {s : State}
    (hrange : outOfRange i s = decide (s.memSize ≤ dataAddress a)) :
    (dataAddress a < s.memSize → exec i s = .next (completed i s)) ∧
    (s.memSize ≤ dataAddress a → exec i s = .next (raise .addressOutOfRange s)) ∧
    (s.aboutTo i → dataAddress a < s.memSize → step s = .next (completed i (countCycle s))) ∧
    (s.aboutTo i → s.memSize ≤ dataAddress a →
      step s = .next (raise .addressOutOfRange (countCycle s))) := by
  have hin (ha : dataAddress a < s.memSize) : outOfRange i s = false :=
    hrange.trans (decide_eq_false (Nat.not_le.2 ha))
  have hout (ha : s.memSize ≤ dataAddress a) : outOfRange i s = true :=
    hrange.trans (decide_eq_true ha)
  refine ⟨fun ha => exec_of_inRange (hin ha), fun ha => exec_of_outOfRange (hout ha),
    fun hi ha => ?_, fun hi ha => ?_⟩
  · exact (step_eq_exec_of_aboutTo hi).trans (exec_of_inRange (hin ha))
  · exact (step_eq_exec_of_aboutTo hi).trans (exec_of_outOfRange (hout ha))

/-- The word of an instruction as a number: the value of its opcode field plus the operand
(30_encoding.md R73). -/
theorem encode_toNat {i : Instr} {k : Kind} {n : Nat} (hk : i.kind = k)
    (hn : k.opcode.toNat * 4096 = n) : (encode i).toNat = n + i.operand.toNat := by
  subst hk hn
  exact wordIsOpcodeThenOperand.1 i

/-- Settles O9: LOAD accesses the cell `a`, and its `completed` state is the one stated. -/
theorem loadCopiesCellToAcc : Obligations.LoadCopiesCellToAcc := fun a s =>
  ⟨encode_toNat (k := .load) rfl (by decide), exec_and_step_of_access (i := .load a) rfl⟩

/-- Settles O10: STORE accesses the cell `a`, its `completed` state is the one stated, and the
written memory reads back by `Memory.read_write`. -/
theorem storeCopiesAccToCell : Obligations.StoreCopiesAccToCell := by
  intro a s
  obtain ⟨hexec, hrest⟩ := exec_and_step_of_access (i := .store a) (a := a) (s := s) rfl
  exact ⟨encode_toNat (k := .store) rfl (by decide),
    fun ha => ⟨hexec ha, fun b => Memory.read_write _ _ b _⟩, hrest⟩

/-! ## What an access leaves unchanged -/

/-- Settles O16: a raise writes `fault` only, and an instruction that completes writes memory and
`halted` only through `nextMem` and `nextHalted`, which for these three are the old contents. -/
theorem frameOfLoadAddSub : Obligations.FrameOfLoadAddSub := by
  intro a i s t hi h
  have hrange : outOfRange i s = decide (s.memSize ≤ dataAddress a) := by
    obtain rfl | rfl | rfl := hi <;> rfl
  have hmem : nextMem i s = s.mem := by obtain rfl | rfl | rfl := hi <;> rfl
  have hhalted : nextHalted i s = s.halted := by obtain rfl | rfl | rfl := hi <;> rfl
  obtain ⟨hor, rfl⟩ | ⟨hor, rfl⟩ := exec_outcomes h
  · have ha : s.memSize ≤ dataAddress a := of_decide_eq_true (hrange.symm.trans hor)
    exact ⟨rfl, rfl, rfl, rfl, rfl, fun _ => rfl, fun hlt => absurd hlt (Nat.not_lt.2 ha),
      fun _ => ⟨rfl, rfl, rfl⟩⟩
  · have ha : ¬ s.memSize ≤ dataAddress a := of_decide_eq_false (hrange.symm.trans hor)
    exact ⟨rfl, hhalted, rfl, rfl, rfl, fun b => congrArg (fun m => (m.read b).toNat) hmem,
      fun _ => rfl, fun hle => absurd hle ha⟩

/-- Settles O17: a raise writes `fault` only, and the memory of a completed STORE reads as before at
every other address by `Memory.read_write`. -/
theorem frameOfStore : Obligations.FrameOfStore := by
  intro a s t h
  obtain ⟨hor, rfl⟩ | ⟨hor, rfl⟩ := exec_outcomes h
  · have ha : s.memSize ≤ dataAddress a := of_decide_eq_true hor
    exact ⟨rfl, rfl, rfl, rfl, rfl, rfl, fun _ _ => rfl, fun hlt => absurd hlt (Nat.not_lt.2 ha),
      fun _ => ⟨rfl, rfl, fun _ => rfl⟩⟩
  · have ha : ¬ s.memSize ≤ dataAddress a := of_decide_eq_false hor
    have hcell (b : Nat) (hb : b ≠ dataAddress a) :
        (s.mem.write (dataAddress a) s.acc).read b = s.mem.read b :=
      (Memory.read_write ..).trans (if_neg hb)
    exact ⟨rfl, rfl, rfl, rfl, rfl, rfl, fun b hb => congrArg BitVec.toNat (hcell b hb),
      fun _ => rfl, fun hle => absurd hle ha⟩

/-- Settles O36: both instructions complete, and the stored cell reads back by
`Memory.read_write`. -/
theorem loadStoreRoundTrip : Obligations.LoadStoreRoundTrip := by
  intro a b s ha hb
  have hload : exec (.load a) s = .next (completed (.load a) s) :=
    exec_of_inRange (decide_eq_false (Nat.not_le.2 ha))
  have hstore : exec (.store b) (completed (.load a) s) =
      .next (completed (.store b) (completed (.load a) s)) :=
    exec_of_inRange (decide_eq_false (Nat.not_le.2 hb))
  have hcell : (s.mem.write b.toNat (s.mem.read a.toNat)).read b.toNat = s.mem.read a.toNat :=
    (Memory.read_write ..).trans (if_pos rfl)
  exact ⟨_, _, hload, hstore, congrArg BitVec.toNat hcell, rfl⟩

/-! ## The canonical form of memory -/

theorem Memory.read_eq_zero_of_unlisted {w : Nat} {m : Memory w} {a : Nat}
    (h : ∀ c ∈ m, c.1 ≠ a) : m.read a = 0#w := by
  induction m with
  | nil => rfl
  | cons c m ih =>
    rw [Memory.read_cons, if_neg (h c List.mem_cons_self)]
    exact ih fun d hd => h d (List.mem_cons_of_mem c hd)

/-- In rising address order each address is listed once, so a read finds every entry. -/
theorem Memory.read_of_mem {w : Nat} {m : Memory w} {a : Nat} {v : BitVec w}
    (hm : m.Pairwise (fun x y => x.1 < y.1)) (h : (a, v) ∈ m) : m.read a = v := by
  induction m with
  | nil => cases h
  | cons c m ih =>
    obtain ⟨hfirst, hrest⟩ := List.pairwise_cons.1 hm
    obtain rfl | htail := List.mem_cons.1 h
    · exact if_pos rfl
    · have hc : c.1 ≠ a := (hfirst (a, v) htail).ne
      rw [Memory.read_cons, if_neg hc]
      exact ih hrest htail

/-- The entries of a canonical memory are the cells that do not hold 0. -/
theorem Memory.mem_iff_read {w : Nat} {m : Memory w} (hm : m.wf) {a : Nat} {v : BitVec w} :
    (a, v) ∈ m ↔ m.read a = v ∧ v ≠ 0#w := by
  obtain ⟨hrising, hnonzero⟩ := hm
  refine ⟨fun h => ⟨Memory.read_of_mem hrising h, hnonzero _ h⟩, ?_⟩
  rintro ⟨rfl, hv⟩
  by_contra hno
  refine hv (Memory.read_eq_zero_of_unlisted fun c hc hca => hno ?_)
  subst hca
  rwa [Memory.read_of_mem hrising hc]

/-- Canonical memories are equal where their reads are: they have the same entries, in the same
order. -/
theorem Memory.ext_read {w : Nat} {m m' : Memory w} (hm : m.wf) (hm' : m'.wf)
    (h : ∀ a, m.read a = m'.read a) : m = m' := by
  have hirrefl : Std.Irrefl (fun x y : Nat × BitVec w => x.1 < y.1) := ⟨fun x => lt_irrefl x.1⟩
  have hantisymm : Std.Antisymm (fun x y : Nat × BitVec w => x.1 < y.1) :=
    ⟨fun _ _ hxy hyx => absurd hxy (lt_asymm hyx)⟩
  refine hm.1.eq_of_mem_iff hm'.1 fun ⟨a, v⟩ => ?_
  rw [Memory.mem_iff_read hm, Memory.mem_iff_read hm', h a]

/-- Settles O35, by `Memory.ext_read`: a write keeps the canonical form, and writing what a cell
holds leaves every read. -/
theorem equalCellsAreEqualMemory : Obligations.EqualCellsAreEqualMemory := by
  refine ⟨fun _ _ _ => Memory.ext_read, fun _ m a hm => ?_⟩
  refine Memory.ext_read (Memory.write_wf a _ hm) hm fun b => ?_
  rw [Memory.read_write]
  split
  · next hb => rw [hb]
  · rfl

end Sys2Proof.Machine

namespace Sys2Proof.Machine

/-! ## Arithmetic, modulo `2^XLEN` -/

/-- The difference of two words is the integer difference narrowed (00_scope.md R10). -/
theorem sub_eq_ofInt {w : Nat} (x y : BitVec w) :
    x - y = BitVec.ofInt w ((x.toNat : Int) - (y.toNat : Int)) := by
  rw [Int.sub_eq_add_neg, BitVec.ofInt_add, BitVec.ofInt_neg, BitVec.sub_eq_add_neg]
  simp only [BitVec.ofInt_natCast, BitVec.ofNat_toNat, BitVec.setWidth_eq]

/-- A completed ADD, its sum taken on integers and narrowed (42_arithmetic.md R120). -/
theorem completed_add (a : Operand) (s : State) :
    completed (.add a) s = { s with
      acc := BitVec.ofNat s.xlen (s.acc.toNat + (s.mem.read a.toNat).toNat)
      pc := s.pc + 1#12
      trace := s.trace ++ [.step .add a (.arithmetic (s.mem.read a.toNat)
        (BitVec.ofNat s.xlen (s.acc.toNat + (s.mem.read a.toNat).toNat)))] } := by
  rw [← BitVec.add_def]
  rfl

/-- A completed SUB, its difference taken on integers and narrowed (42_arithmetic.md R121). -/
theorem completed_sub (a : Operand) (s : State) :
    completed (.sub a) s = { s with
      acc := BitVec.ofInt s.xlen ((s.acc.toNat : Int) - ((s.mem.read a.toNat).toNat : Int))
      pc := s.pc + 1#12
      trace := s.trace ++ [.step .sub a (.arithmetic (s.mem.read a.toNat)
        (BitVec.ofInt s.xlen ((s.acc.toNat : Int) - ((s.mem.read a.toNat).toNat : Int))))] } := by
  rw [← sub_eq_ofInt]
  rfl

/-- Settles O11: ADD accesses the cell `a`, and its `completed` state is the one stated by
`completed_add`. -/
theorem addAddsCellToAcc : Obligations.AddAddsCellToAcc := by
  intro a s
  have haccess := exec_and_step_of_access (i := .add a) (a := a) (s := s) rfl
  rw [completed_add, completed_add] at haccess
  exact ⟨encode_toNat (k := .add) rfl (by decide), haccess⟩

/-- Settles O12: SUB accesses the cell `a`, and its `completed` state is the one stated by
`completed_sub`. -/
theorem subSubtractsCellFromAcc : Obligations.SubSubtractsCellFromAcc := by
  intro a s
  have haccess := exec_and_step_of_access (i := .sub a) (a := a) (s := s) rfl
  rw [completed_sub, completed_sub] at haccess
  exact ⟨encode_toNat (k := .sub) rfl (by decide), haccess⟩

/-- Settles O37: the three instructions complete, and none of them writes the cell `b`, so SUB takes
away what ADD added: `BitVec.add_sub_cancel`, with or without overflow. -/
theorem addSubInverse : Obligations.AddSubInverse := by
  intro a b s ha hb
  have hload : exec (.load a) s = .next (completed (.load a) s) :=
    exec_of_inRange (decide_eq_false (Nat.not_le.2 ha))
  have hb' : decide (s.memSize ≤ dataAddress b) = false := decide_eq_false (Nat.not_le.2 hb)
  have hacc : s.mem.read a.toNat + s.mem.read b.toNat - s.mem.read b.toNat = s.mem.read a.toNat :=
    BitVec.add_sub_cancel _ _
  exact ⟨_, _, _, hload, exec_of_inRange hb', exec_of_inRange hb', congrArg BitVec.toNat hacc⟩

end Sys2Proof.Machine

namespace Sys2Proof.Machine

/-! ## Zero data -/

/-- A memory whose listed cells hold 0 reads as 0 at every address, listed or not. -/
theorem Memory.read_eq_zero_of_listed_zero {w : Nat} {m : Memory w} (hm : ∀ c ∈ m, c.2 = 0#w)
    (a : Nat) : m.read a = 0#w := by
  induction m with
  | nil => rfl
  | cons c m ih =>
    obtain ⟨hc, hrest⟩ := List.forall_mem_cons.1 hm
    rw [Memory.read_cons, hc, ih hrest, ite_self]

theorem nextAcc_of_allZero (i : Instr) {s : State} (hs : s.allZero) : nextAcc i s = 0#s.xlen := by
  obtain ⟨hacc, hmem⟩ := hs
  have hread (a : Operand) : s.mem.read (dataAddress a) = 0#s.xlen :=
    Memory.read_eq_zero_of_listed_zero hmem _
  cases i with
  | load a => exact hread a
  | add a => rw [nextAcc, hacc, hread, BitVec.add_zero]
  | sub a => rw [nextAcc, hacc, hread, BitVec.sub_zero]
  | store _ | jump _ | nop _ | halt _ => exact hacc

/-- A STORE writes the accumulator, which is 0, and writing 0 leaves old entries only. -/
theorem nextMem_entries_zero_of_allZero {i : Instr} {s : State} (hs : s.allZero) :
    ∀ c ∈ nextMem i s, c.2 = 0#s.xlen := by
  obtain ⟨hacc, hmem⟩ := hs
  cases i with
  | store a =>
    intro c hc
    obtain ⟨-, hne⟩ | ⟨hold, -⟩ := Memory.mem_write.1 hc
    · exact absurd hacc hne
    · exact hmem c hold
  | load _ | add _ | sub _ | jump _ | nop _ | halt _ => exact hmem

theorem step_allZero {s t : State} (hs : s.allZero) (h : step s = .next t) : t.allZero := by
  obtain ⟨-, -, rfl⟩ | ⟨-, -, rfl⟩ | ⟨i, -, ⟨-, rfl⟩ | ⟨-, rfl⟩⟩ := step_outcomes h
  · exact hs
  · exact hs
  · exact hs
  · have hcounted : (countCycle s).allZero := hs
    exact ⟨nextAcc_of_allZero i hcounted, nextMem_entries_zero_of_allZero hcounted⟩

/-- A JUMP that executes with a zero accumulator is taken (43_control.md R130). -/
theorem step_pc_of_aboutTo_jump {s t : State} {x : Operand} (hx : s.aboutTo (.jump x))
    (h0 : s.acc = 0#s.xlen) (h : step s = .next t) : t.pc = x := by
  obtain ⟨hor, -⟩ | ⟨-, rfl⟩ := step_of_aboutTo hx h
  · cases hor
  · exact if_pos h0

theorem construct_allZero (p : Params) : (construct p).allZero := ⟨rfl, List.forall_mem_nil _⟩

theorem endRun_allZero {s : State} (hs : s.allZero) : (endRun s).allZero := by
  rw [endRun_eq]
  exact hs

/-- Settles O33: zero data is an invariant of the step and of the end of a `run`, and makes the test
of every JUMP succeed; the construction starts it and `run_keeps` carries it through a `run`. -/
theorem zeroDataStaysZero : Obligations.ZeroDataStaysZero :=
  ⟨fun _ _ hs h => ⟨step_allZero hs h, fun _ hx => step_pc_of_aboutTo_jump hx hs.1 h⟩,
    construct_allZero,
    fun _ p _ hrun => run_keeps (P := State.allZero) (fun _ _ => step_allZero)
      (fun _ => endRun_allZero) hrun (construct_allZero p)⟩

/-! ## Instructions that access no data memory -/

/-- An instruction that is not out of range completes, executed and as a whole cycle. -/
theorem exec_and_step_of_inRange {i : Instr} {s : State} (h : outOfRange i s = false) :
    exec i s = .next (completed i s) ∧
      (s.aboutTo i → step s = .next (completed i (countCycle s))) :=
  ⟨exec_of_inRange h, fun hi => (step_eq_exec_of_aboutTo hi).trans (exec_of_inRange h)⟩

/-- A completed JUMP, its test made on the number the accumulator holds (43_control.md R130). -/
theorem completed_jump (x : Operand) (s : State) :
    completed (.jump x) s = { s with
      pc := if s.acc.toNat = 0 then x else s.pc + 1#12
      trace := s.trace ++ [.step .jump x (.jump (decide (s.acc.toNat = 0)))] } := by
  have hzero : s.acc.toNat = 0 ↔ s.acc = 0#s.xlen :=
    ⟨fun h => BitVec.eq_of_toNat_eq h, fun h => congrArg BitVec.toNat h⟩
  simp only [hzero]
  rfl

/-- Settles O13: JUMP always completes, and its `completed` state is the one stated by
`completed_jump`; a taken one leaves its target in `pc`, which may be past the program. -/
theorem jumpBranchesIfAccZero : Obligations.JumpBranchesIfAccZero := by
  intro x s
  obtain ⟨hexec, hstep⟩ := exec_and_step_of_inRange (i := .jump x) (s := s) rfl
  refine ⟨encode_toNat (k := .jump) rfl (by decide), completed_jump x s ▸ hexec,
    completed_jump x (countCycle s) ▸ hstep, fun hx h0 hlen => ?_⟩
  have hpc := step_pc_of_aboutTo_jump hx (BitVec.eq_of_toNat_eq h0) (hstep hx)
  obtain ⟨hfault, hhalted, -⟩ := hx.1
  exact ⟨_, hstep hx, (condition_eq_offEnd_iff _).2 ⟨hfault, hhalted, hpc.symm ▸ hlen⟩, hpc⟩

/-- Settles O14: NOP always completes, and its `completed` state is the one stated. -/
theorem nopOnlyAdvances : Obligations.NopOnlyAdvances := fun x s =>
  ⟨encode_toNat (k := .nop) rfl (by decide), exec_and_step_of_inRange (i := .nop x) rfl⟩

/-- A `run` of a Halted machine executes no cycle, draws `elapsed_time` and emits the summary, under
any fuel (40_execution_cycle.md R97, 45_interfaces_and_trace.md R159). -/
theorem run_of_halted (n : Nat) {s : State} (h : s.condition = .halted) :
    ∃ e, run n s = some { s with
      elapsedTime := e
      elapsedDraws := s.elapsedDraws + 1
      trace := s.trace ++ [.summary s.cycleCount e s.acc s.pc (s.mem.dump s.memSize)] } := by
  have hstop : s.condition ≠ .runnable := h ▸ nofun
  obtain ⟨hfault, -⟩ := (condition_eq_halted_iff s).1 h
  refine ⟨Config.elapsedTime s.elapsedDraws, ?_⟩
  rw [run_of_stopped n hstop, endRun_eq, if_pos hfault]

/-- Settles O15: HALT always completes, and its `completed` state is the one stated; that state is
Halted, so neither `afterCycles` nor `run` executes a cycle from it. -/
theorem haltSetsHaltedAndAdvances : Obligations.HaltSetsHaltedAndAdvances := by
  intro x s
  obtain ⟨hexec, hstep⟩ := exec_and_step_of_inRange (i := .halt x) (s := s) rfl
  refine ⟨encode_toNat (k := .halt) rfl (by decide), hexec, fun hx => ?_⟩
  have hhalted : (completed (.halt x) (countCycle s)).condition = .halted :=
    (step_condition_halted_iff hx.1 (hstep hx)).2 ⟨x, hx⟩
  exact ⟨_, hstep hx, hhalted, fun n => afterCycles_of_stopped n (hhalted ▸ nofun), rfl,
    fun n => run_of_halted n hhalted⟩

/-- Settles O18: none of the three is ever out of range, so they complete, and an instruction that
completes writes `acc`, memory and `halted` only through `nextAcc`, `nextMem` and `nextHalted`. -/
theorem frameOfJumpNopHalt : Obligations.FrameOfJumpNopHalt := by
  intro x i s t hi h
  have hrange : outOfRange i s = false := by obtain rfl | rfl | rfl := hi <;> rfl
  have hacc : nextAcc i s = s.acc := by obtain rfl | rfl | rfl := hi <;> rfl
  have hmem : nextMem i s = s.mem := by obtain rfl | rfl | rfl := hi <;> rfl
  have hhalted (hne : i ≠ .halt x) : nextHalted i s = s.halted := by
    obtain rfl | rfl | rfl := hi
    · rfl
    · rfl
    · exact absurd rfl hne
  obtain rfl : completed i s = t := Host.Outcome.next.inj ((exec_of_inRange hrange).symm.trans h)
  exact ⟨rfl, congrArg BitVec.toNat hacc, rfl, rfl, rfl, rfl,
    fun b => congrArg (fun m => (m.read b).toNat) hmem, hhalted⟩

/-- Settles O39: LOAD completes and leaves the cell's 0 in the accumulator, so the JUMP after it is
taken and leaves the accumulator. -/
theorem unconditionalJumpIdiom : Obligations.UnconditionalJumpIdiom := by
  intro z x s hz hcell
  have hload : exec (.load z) s = .next (completed (.load z) s) :=
    exec_of_inRange (decide_eq_false (Nat.not_le.2 hz))
  have hjump : exec (.jump x) (completed (.load z) s) =
      .next (completed (.jump x) (completed (.load z) s)) := exec_of_inRange rfl
  have hacc : (completed (.load z) s).acc = 0#s.xlen := BitVec.eq_of_toNat_eq hcell
  exact ⟨_, _, hload, hjump, if_pos hacc, hcell⟩

end Sys2Proof.Machine

namespace Sys2Proof.Machine

/-! ## One cycle of the pipeline-mode walk -/

/-- A completed cycle adds its line, and HALT ends the walk (44_pipeline_walk.md R143). -/
theorem walkCycle_of_completed {k : Walk} {i : Instr} {t : State} (hk : k.ended = none)
    (hi : k.engine.aboutTo i) (h : step k.engine = .next t) (hf : t.fault = 0#2) :
    walkCycle k =
      { engine := t
        lines := k.lines ++ [⟨k.engine.cycleCount + 1#64, i.kind, i.operand⟩]
        ended := if i.kind = .halt then some .silent else none } := by
  obtain ⟨hr, w, hw, hd⟩ := hi
  have hcycle := (step_of_runnable ((condition_eq_runnable_iff _).2 hr)).symm.trans h
  rw [← step_cycleCount_of_runnable hr h]
  simp [walkCycle, hk, Option.mem_def.1 hw, hcycle, hf, hd]

/-- A cycle that faults ends the walk, without a line (R144, log 14). -/
theorem walkCycle_of_faulted {k : Walk} {t : State} (hk : k.ended = none)
    (hr : k.engine.Runnable) (h : step k.engine = .next t) (hf : t.fault ≠ 0#2) :
    walkCycle k = { engine := t, lines := k.lines, ended := some .faulted } := by
  obtain ⟨w, hw⟩ : ∃ w, fetch k.engine = some w := hr.exists_word
  have hcycle := (step_of_runnable ((condition_eq_runnable_iff _).2 hr)).symm.trans h
  simp [walkCycle, hk, hw, hcycle, hf]

/-- Past the program's end the walk ends with its report (R143). -/
theorem walkCycle_of_offEnd {k : Walk} (hk : k.ended = none) (hc : k.engine.condition = .offEnd) :
    walkCycle k = { k with ended := some .reported } := by
  obtain ⟨-, -, hpc⟩ := (condition_eq_offEnd_iff _).1 hc
  have hfetch : fetch k.engine = none := List.getElem?_eq_none hpc
  simp [walkCycle, hk, hfetch]

theorem walkCycle_of_ended {k : Walk} {e : WalkEnd} (hk : k.ended = some e) : walkCycle k = k := by
  simp only [walkCycle, hk]

theorem reportOf_of_reported {k : Walk} (hk : k.ended = some .reported) :
    reportOf k = some (k.engine.cycleCount, k.engine.accValue) := if_pos hk

theorem reportOf_of_not_reported {k : Walk} (hk : k.ended ≠ some .reported) : reportOf k = none :=
  if_neg hk

/-- Settles O54, by the three equations of `walkCycle`: a completed cycle, a fault, and the end of the
program. -/
theorem walkCycleLinesAndEnds : Obligations.WalkCycleLinesAndEnds := by
  refine fun k hk => ⟨fun i t hi h hf => ?_, fun t hr h hf => ?_, fun hc => ?_⟩
  · rw [walkCycle_of_completed hk hi h hf]
    refine ⟨rfl, rfl, by simp, reportOf_of_not_reported ?_⟩
    split_ifs <;> nofun
  · rw [walkCycle_of_faulted hk hr h hf]
    exact ⟨rfl, rfl, reportOf_of_not_reported nofun⟩
  · rw [walkCycle_of_offEnd hk hc]
    exact ⟨rfl, reportOf_of_reported rfl⟩

/-! ## Cycle after cycle of a walk -/

theorem walkCycles_eq_iterate (n : Nat) (k : Walk) : walkCycles n k = walkCycle^[n] k := by
  induction n generalizing k with
  | zero => rfl
  | succ n ih => exact ih (walkCycle k)

theorem walkCycles_of_ended (n : Nat) {k : Walk} {e : WalkEnd} (hk : k.ended = some e) :
    walkCycles n k = k :=
  (walkCycles_eq_iterate n k).trans (Function.iterate_fixed (walkCycle_of_ended hk) n)

/-- The private machine of a walk moves by the cycle of 40_execution_cycle.md R91 alone (R142). -/
theorem walkCycle_engine (k : Walk) :
    (walkCycle k).engine = k.engine ∨ cycle k.engine = .next (walkCycle k).engine := by
  unfold walkCycle
  split
  · exact .inl rfl
  · split
    · next hcycle =>
      refine .inr (hcycle.trans ?_)
      split
      · rfl
      · split <;> rfl
    · exact .inl rfl

theorem exec_allZero {i : Instr} {s t : State} (hs : s.allZero) (h : exec i s = .next t) :
    t.allZero := by
  obtain ⟨-, rfl⟩ | ⟨-, rfl⟩ := exec_outcomes h
  · exact hs
  · exact ⟨nextAcc_of_allZero i hs, nextMem_entries_zero_of_allZero hs⟩

/-- Unlike `step_allZero` this does not ask that the machine be runnable, and `walkCycle` does not
either. -/
theorem cycle_allZero {s t : State} (hs : s.allZero) (h : cycle s = .next t) : t.allZero := by
  unfold cycle at h
  split at h
  · cases h
    exact hs
  · split at h
    · cases h
      exact hs
    · exact exec_allZero (s := countCycle s) hs h

theorem walkCycle_allZero (k : Walk) (hk : k.engine.allZero) : (walkCycle k).engine.allZero := by
  obtain hstay | hcycle := walkCycle_engine k
  · rwa [hstay]
  · exact cycle_allZero hk hcycle

/-- Settles O55: a walk starts on a constructed machine, and its cycles keep zero data. -/
theorem walkComputesZeros : Obligations.WalkComputesZeros := by
  intro n s
  rw [walkCycles_eq_iterate]
  exact Function.Iterate.rec (fun k : Walk => k.engine.allZero) (construct_allZero s.params)
    walkCycle_allZero n

/-! ## The walk and a `run` -/

/-- No word of the program decodes to HALT. -/
def noHalt (program : List InstrWord) : Prop := ∀ w ∈ program, ∀ x, decodeWord w ≠ .ok (.halt x)

theorem not_aboutTo_halt_of_noHalt {s : State} (hp : noHalt s.program) (x : Operand) :
    ¬ s.aboutTo (.halt x) := fun ⟨_, w, hw, hd⟩ => hp w (List.mem_of_getElem? hw) x hd

theorem kind_ne_halt_of_noHalt {s : State} {i : Instr} (hp : noHalt s.program)
    (hi : s.aboutTo i) : i.kind ≠ .halt := by
  cases i with
  | halt x => exact absurd hi (not_aboutTo_halt_of_noHalt hp x)
  | load _ | store _ | add _ | sub _ | jump _ | nop _ => nofun

/-- Without a HALT in the program no step sets `halted` (10_state.md R28). -/
theorem step_halted_of_noHalt {s t : State} (hp : noHalt s.program) (hh : s.halted = false)
    (h : step s = .next t) : t.halted = false := by
  rw [← Bool.not_eq_true, step_halted_iff h, hh]
  rintro (hset | ⟨x, hx⟩)
  · cases hset
  · exact not_aboutTo_halt_of_noHalt hp x hx

/-- A cycle that leaves `fault` 0 executed an instruction. -/
theorem exists_aboutTo_of_step {s t : State} (hr : s.Runnable) (h : step s = .next t)
    (hf : t.fault = 0#2) : ∃ i, s.aboutTo i := by
  obtain ⟨hstop, -⟩ | ⟨-, -, rfl⟩ | ⟨i, hi, -⟩ := step_outcomes h
  · exact absurd hr hstop
  · exact absurd hf (raise_fault_ne_zero _ _)
  · exact ⟨i, hi⟩

/-- A `run` leaves a recorded fault (60_exceptions.md R175). -/
theorem fault_eq_zero_of_run {n : Nat} {s v : State} (h : run n s = some v) (hv : v.fault = 0#2) :
    s.fault = 0#2 := by
  by_contra hf
  have hstop : s.condition ≠ .runnable := (condition_eq_faulted_iff s).2 hf ▸ nofun
  cases (run_of_stopped n hstop).symm.trans h
  exact hf ((congrArg State.fault (endRun_architectural s)).symm.trans hv)

theorem condition_runnable_or_offEnd {s : State} (hf : s.fault = 0#2) (hh : s.halted = false) :
    s.condition = .runnable ∨ s.condition = .offEnd := by
  rw [condition_eq_runnable_iff, condition_eq_offEnd_iff]
  exact (Nat.lt_or_ge _ _).imp (fun hpc => ⟨hf, hh, hpc⟩) fun hpc => ⟨hf, hh, hpc⟩

/-- A walk and a `run` that both stand at the end of the program end with the same count and
accumulator. -/
theorem reportOf_walkCycles_of_offEnd {n m : Nat} {k : Walk} {v : State} (hk : k.ended = none)
    (hc : k.engine.condition = .offEnd) (hrun : run n k.engine = some v) :
    reportOf (walkCycles (m + 1) k) = some (v.cycleCount, v.accValue) := by
  cases (run_of_stopped n (hc ▸ nofun)).symm.trans hrun
  rw [walkCycles, walkCycle_of_offEnd hk hc, walkCycles_of_ended m rfl, reportOf_of_reported rfl,
    endRun_eq]
  rfl

/-- A runnable machine of a walk whose cycle completes without a HALT is stepped, and the walk goes
on. -/
theorem exists_walkCycle_of_noHalt {k : Walk} {t : State} (hk : k.ended = none)
    (hp : noHalt k.engine.program) (hr : k.engine.Runnable) (h : step k.engine = .next t)
    (hf : t.fault = 0#2) : ∃ lines, walkCycle k = { engine := t, lines := lines, ended := none } := by
  obtain ⟨i, hi⟩ := exists_aboutTo_of_step hr h hf
  rw [walkCycle_of_completed hk hi h hf, if_neg (kind_ne_halt_of_noHalt hp hi)]
  exact ⟨_, rfl⟩

/-- A walk going on and a `run` from the same machine move together, cycle by cycle, until the end of
the program, which the walk takes one more iteration to report. -/
theorem reportOf_walkCycles_of_run {n : Nat} {k : Walk} {v : State} (hk : k.ended = none)
    (hp : noHalt k.engine.program) (hh : k.engine.halted = false)
    (hrun : run n k.engine = some v) (hv : v.fault = 0#2) :
    reportOf (walkCycles (n + 1) k) = some (v.cycleCount, v.accValue) := by
  induction n generalizing k with
  | zero =>
    obtain hc | hc := condition_runnable_or_offEnd (fault_eq_zero_of_run hrun hv) hh
    · cases (run_zero_of_runnable hc).symm.trans hrun
    · exact reportOf_walkCycles_of_offEnd hk hc hrun
  | succ n ih =>
    obtain hc | hc := condition_runnable_or_offEnd (fault_eq_zero_of_run hrun hv) hh
    · obtain ⟨t, ht⟩ := cycle_next k.engine
      have hstep : step k.engine = .next t := (step_of_runnable hc).trans ht
      have hrest : run n t = some v := (run_of_runnable n hc ht).symm.trans hrun
      have hf : t.fault = 0#2 := fault_eq_zero_of_run hrest hv
      have hprogram : t.program = k.engine.program := congrArg Params.program (step_params hstep)
      obtain ⟨lines, hwalk⟩ :=
        exists_walkCycle_of_noHalt hk hp ((condition_eq_runnable_iff _).1 hc) hstep hf
      rw [walkCycles, hwalk]
      exact ih rfl (hprogram ▸ hp) (step_halted_of_noHalt hp hh hstep) hrest
    · exact reportOf_walkCycles_of_offEnd hk hc hrun

/-- Settles O56: the walk starts on the constructed machine, from which the `run` starts too. -/
theorem walkAgreesWithRun : Obligations.WalkAgreesWithRun := fun _ p _ hp hrun hv =>
  reportOf_walkCycles_of_run (k := walkStart (construct p)) rfl hp rfl hrun hv

end Sys2Proof.Machine

namespace Sys2Proof.Machine

/-! ## The clock with `rst` and `run` -/

/-- With `run` for one clock a runnable machine executes the cycle of `step`
(60_exceptions.md R186). -/
theorem step_eq_next_clock {s : State} (hr : s.Runnable) :
    step s = .next (clock false true s) := by
  have hc := (condition_eq_runnable_iff s).2 hr
  obtain ⟨t, ht⟩ := cycle_next s
  simp [step_of_runnable hc, clock, hc, ht]

theorem clock_of_not_runnable {s : State} (hr : ¬ s.Runnable) : clock false true s = s := by
  simp [clock, mt (condition_eq_runnable_iff s).1 hr]

/-- Settles O53, by the branches of `clock`. -/
theorem clockPriority : Obligations.ClockPriority := fun _ =>
  ⟨fun _ => rfl, step_eq_next_clock, clock_of_not_runnable, rfl⟩

/-! ## A `run` that `rst` stops -/

/-- What every step keeps holds after any number of cycles. -/
theorem afterCycles_keeps {P : State → Prop} (hstep : ∀ s t, P s → step s = .next t → P t)
    (k : Nat) {s : State} (hs : P s) : P (afterCycles k s) := by
  induction k generalizing s with
  | zero => exact hs
  | succ k ih =>
    by_cases hc : s.condition = .runnable
    · obtain ⟨t, ht⟩ := cycle_next s
      rw [afterCycles_of_runnable k hc ht]
      exact ih (hstep s t hs ((step_of_runnable hc).trans ht))
    · rwa [afterCycles_of_stopped (k + 1) hc]

theorem afterCycles_params (k : Nat) (s : State) : (afterCycles k s).params = s.params :=
  afterCycles_keeps (P := fun t => t.params = s.params)
    (fun _ _ hu hst => (step_params hst).trans hu) k rfl

/-- At least `n` events have been emitted, and those after the first `n` are step events. -/
def onlyStepEventsFrom (n : Nat) (s : State) : Prop :=
  n ≤ s.trace.length ∧ (s.trace.drop n).all TraceEvent.isStep = true

theorem onlyStepEventsFrom_length (s : State) : onlyStepEventsFrom s.trace.length s := by
  simp [onlyStepEventsFrom]

/-- A cycle emits a step event or nothing (45_interfaces_and_trace.md R158). -/
theorem step_onlyStepEventsFrom {n : Nat} {s t : State} (hs : onlyStepEventsFrom n s)
    (h : step s = .next t) : onlyStepEventsFrom n t := by
  obtain ⟨-, -, rfl⟩ | ⟨-, -, rfl⟩ | ⟨i, -, ⟨-, rfl⟩ | ⟨-, rfl⟩⟩ := step_outcomes h
  · exact hs
  · exact hs
  · exact hs
  · obtain ⟨hlen, hall⟩ := hs
    refine ⟨Nat.le_trans hlen (List.prefix_append _ _).length_le, ?_⟩
    rw [completed, List.drop_append_of_le_length (show n ≤ (countCycle s).trace.length from hlen),
      List.all_append]
    exact Bool.and_eq_true_iff.2 ⟨hall, rfl⟩

/-- Settles O47: the cycles before `rst` keep the parameters and emit step events only, and `reset`
leaves the constructed state and appends its notice. -/
theorem runIsStoppedByReset : Obligations.RunStoppedByReset := by
  intro k s
  obtain ⟨hlen, hall⟩ :=
    afterCycles_keeps (fun _ _ => step_onlyStepEventsFrom) k (onlyStepEventsFrom_length s)
  refine ⟨congrArg construct (afterCycles_params k s), List.getLast?_concat, ?_⟩
  simpa [runStoppedByReset, List.drop_append_of_le_length hlen] using hall

/-! ## The control table, the step event and the datapath -/

/-- The row of an illegal opcode (45_interfaces_and_trace.md R155). -/
theorem controls_of_decodeWord_error {w : InstrWord} {e : DecodeError} (s : State)
    (h : decodeWord w = .error e) :
    controls s w = Controls.faulting (FaultCause.code .unknownOpcode) := by
  rw [controls, (kindOf_eq_none_iff _).2 (decodeWord_error h)]
  rfl

/-- The row of an instruction, and what replaces it where the access is out of range (R155). -/
theorem controls_of_decodeWord_ok {w : InstrWord} {i : Instr} (s : State)
    (h : decodeWord w = .ok i) :
    controls s w =
      if outOfRange i s then Controls.faulting (FaultCause.code .addressOutOfRange)
      else controlRow (s.acc == 0#s.xlen) (some i.kind) := by
  obtain ⟨hk, ha⟩ := decodeWord_ok h
  rw [controls, hk, ha]
  cases i <;> rfl

theorem controls_of_outOfRange {s : State} {w : InstrWord} {i : Instr} (hd : decodeWord w = .ok i)
    (hor : outOfRange i s = true) :
    controls s w = Controls.faulting (FaultCause.code .addressOutOfRange) :=
  (controls_of_decodeWord_ok s hd).trans (if_pos hor)

theorem controls_of_inRange {s : State} {w : InstrWord} {i : Instr} (hd : decodeWord w = .ok i)
    (hor : outOfRange i s = false) :
    controls s w = controlRow (s.acc == 0#s.xlen) (some i.kind) :=
  (controls_of_decodeWord_ok s hd).trans (if_neg (Bool.eq_false_iff.1 hor))

/-- The controls of a word: a faulting row for a word that does not decode and for an access out of
range, the row of the kind for an instruction that completes. -/
theorem controls_cases (s : State) (w : InstrWord) :
    (∃ e, decodeWord w = .error e ∧
      controls s w = Controls.faulting (FaultCause.code .unknownOpcode)) ∨
    ∃ i, decodeWord w = .ok i ∧
      ((outOfRange i s = true ∧
        controls s w = Controls.faulting (FaultCause.code .addressOutOfRange)) ∨
      (outOfRange i s = false ∧
        controls s w = controlRow (s.acc == 0#s.xlen) (some i.kind))) := by
  cases hd : decodeWord w with
  | error e => exact .inl ⟨e, rfl, controls_of_decodeWord_error s hd⟩
  | ok i =>
    refine .inr ⟨i, rfl, ?_⟩
    cases hor : outOfRange i s
    · exact .inr ⟨rfl, controls_of_inRange hd hor⟩
    · exact .inl ⟨rfl, controls_of_outOfRange hd hor⟩

/-- The row of a kind raises nothing. -/
theorem controlRow_faultNext (z : Bool) (k : Kind) : (controlRow z (some k)).faultNext = 0#2 := by
  cases k <;> rfl

/-- The row of HALT alone sets `halted` (43_control.md R133). -/
theorem controlRow_setHalted (z : Bool) (i : Instr) (s : State) :
    (s.halted || (controlRow z (some i.kind)).setHalted) = nextHalted i s := by
  cases i with
  | halt _ => exact Bool.or_true _
  | load _ | store _ | add _ | sub _ | jump _ | nop _ => exact Bool.or_false _

/-- No cause has the code 0 (60_exceptions.md R170). -/
theorem FaultCause.code_ne_zero (c : FaultCause) : c.code ≠ 0#2 := by
  cases c <;> decide

theorem stepEventOf_of_faulting {s : State} {w : InstrWord} {c : FaultCause}
    (h : controls s w = Controls.faulting c.code) : stepEventOf s w = none := by
  rw [stepEventOf, h]
  exact if_pos c.code_ne_zero

theorem stepEventOf_of_inRange {s : State} {w : InstrWord} {i : Instr} (hd : decodeWord w = .ok i)
    (hor : outOfRange i s = false) :
    stepEventOf s w = some (.step i.kind i.operand (detailOf i s)) := by
  have hfault : (controls s w).faultNext = 0#2 :=
    (congrArg _ (controls_of_inRange hd hor)).trans (controlRow_faultNext _ _)
  obtain ⟨hk, ha⟩ := decodeWord_ok hd
  rw [stepEventOf, if_neg (not_not.2 hfault), hk, ha]
  cases i <;> rfl

/-- A word has a step event only where it is an instruction that completes. -/
theorem completes_of_stepEventOf {s : State} {w : InstrWord} {e : TraceEvent s.xlen}
    (h : stepEventOf s w = some e) : ∃ i, decodeWord w = .ok i ∧ outOfRange i s = false := by
  obtain ⟨-, -, hc⟩ | ⟨i, hd, ⟨-, hc⟩ | ⟨hor, -⟩⟩ := controls_cases s w
  · cases (stepEventOf_of_faulting hc).symm.trans h
  · cases (stepEventOf_of_faulting hc).symm.trans h
  · exact ⟨i, hd, hor⟩

/-- Under a faulting row the datapath counts the cycle and records the cause, and writes nothing
else (60_exceptions.md R174). -/
theorem datapath_of_faulting {s : State} {w : InstrWord} {c : FaultCause}
    (h : controls s w = Controls.faulting c.code) : datapath s w = raise c (countCycle s) := by
  rw [datapath, stepEventOf_of_faulting h, h]
  simp [Controls.faulting, c.code_ne_zero, raise, countCycle]

/-- Under the row of its kind the datapath completes the instruction. -/
theorem datapath_of_inRange {s : State} {w : InstrWord} {i : Instr} (hd : decodeWord w = .ok i)
    (hor : outOfRange i s = false) : datapath s w = completed i (countCycle s) := by
  rw [datapath, stepEventOf_of_inRange hd hor, controls_of_inRange hd hor, (decodeWord_ok hd).2,
    controlRow_setHalted]
  cases i with
  | jump x =>
    by_cases h0 : s.acc = 0#s.xlen
    · have htarget : nextPc (.jump x) (countCycle s) = x := if_pos h0
      rw [completed, htarget, beq_iff_eq.2 h0]
      rfl
    · have hnext : nextPc (.jump x) (countCycle s) = s.pc + 1#12 := if_neg h0
      rw [completed, hnext, beq_eq_false_iff_ne.2 h0]
      rfl
  | load _ | store _ | add _ | sub _ | nop _ | halt _ => rfl

/-- A word that decodes to no instruction raises in its cycle (60_exceptions.md R171). -/
theorem step_of_decodeWord_error {s : State} {w : InstrWord} {e : DecodeError} (hr : s.Runnable)
    (hw : fetch s = some w) (hd : decodeWord w = .error e) :
    step s = .next (raise .unknownOpcode (countCycle s)) := by
  rw [step_of_runnable ((condition_eq_runnable_iff s).2 hr), cycle, hw]
  simp only [hd]

/-- Settles O50: the datapath raises under the two faulting rows, as the cycle does, and completes
the instruction under the row of its kind. -/
theorem controlTableIsTheCycle : Obligations.ControlTableIsTheCycle := by
  intro s w hr hw
  obtain ⟨e, hd, hc⟩ | ⟨i, hd, hout⟩ := controls_cases s w
  · rw [datapath_of_faulting hc, step_of_decodeWord_error hr hw hd]
  · have hi : s.aboutTo i := State.aboutTo_of_word hr hw hd
    rw [step_eq_exec_of_aboutTo hi]
    obtain ⟨hor, hc⟩ | ⟨hor, -⟩ := hout
    · rw [datapath_of_faulting hc]
      exact exec_of_outOfRange (s := countCycle s) hor
    · rw [datapath_of_inRange hd hor]
      exact exec_of_inRange (s := countCycle s) hor

/-! ## The word that executes -/

theorem currentWord_eq_some_iff {rst r : Bool} {s : State} {w : InstrWord} :
    currentWord rst r s = some w ↔
      rst = false ∧ r = true ∧ s.Runnable ∧ fetch s = some w := by
  cases rst with
  | true => simp
  | false =>
    cases r with
    | false => simp
    | true =>
      by_cases hr : s.Runnable
      · rw [currentWord_run, imemData_of_runnable hr]
        exact ⟨fun hw => ⟨rfl, rfl, hr, hw⟩, fun ⟨_, _, _, hw⟩ => hw⟩
      · simp [imemData_of_stopped hr, hr]

theorem currentWord_of_aboutTo {s : State} {i : Instr} (hi : s.aboutTo i) :
    ∃ w, currentWord false true s = some w ∧ decodeWord w = .ok i := by
  obtain ⟨hr, w, hw, hd⟩ := hi
  exact ⟨w, currentWord_eq_some_iff.2 ⟨rfl, rfl, hr, hw⟩, hd⟩

/-- The instruction that executes is the one the machine is about to execute, under `run` without
`rst` (45_interfaces_and_trace.md R154). -/
theorem exists_currentWord_iff {rst r : Bool} {s : State} {P : Instr → Prop} :
    (∃ w, currentWord rst r s = some w ∧ ∃ i, decodeWord w = .ok i ∧ P i) ↔
      rst = false ∧ r = true ∧ ∃ i, s.aboutTo i ∧ P i := by
  constructor
  · rintro ⟨w, hw, i, hd, hp⟩
    obtain ⟨hrst, hrun, hr, hf⟩ := currentWord_eq_some_iff.1 hw
    exact ⟨hrst, hrun, i, State.aboutTo_of_word hr hf hd, hp⟩
  · rintro ⟨rfl, rfl, i, hi, hp⟩
    obtain ⟨w, hw, hd⟩ := currentWord_of_aboutTo hi
    exact ⟨w, hw, i, hd, hp⟩

/-! ## The data-memory port -/

/-- A control that the faulting rows do not assert is asserted exactly by the row of an instruction
that completes. -/
theorem enable_controls_iff {enable : Controls → Bool}
    (hoff : ∀ c, enable (Controls.faulting c) = false) (s : State) (w : InstrWord) :
    enable (controls s w) = true ↔ ∃ i, decodeWord w = .ok i ∧
      (outOfRange i s = false ∧ enable (controlRow (s.acc == 0#s.xlen) (some i.kind)) = true) := by
  constructor
  · intro hen
    obtain ⟨-, -, hc⟩ | ⟨i, hd, ⟨-, hc⟩ | ⟨hor, hc⟩⟩ := controls_cases s w
    · cases ((congrArg enable hc).trans (hoff _)).symm.trans hen
    · cases ((congrArg enable hc).trans (hoff _)).symm.trans hen
    · exact ⟨i, hd, hor, hc ▸ hen⟩
  · rintro ⟨i, hd, hor, hen⟩
    exact (congrArg enable (controls_of_inRange hd hor)).trans hen

/-- Such a control is asserted on the ports under `run` without `rst`, for an instruction that
completes and whose row asserts it. -/
theorem enable_currentWord_iff {enable : Controls → Bool}
    (hoff : ∀ c, enable (Controls.faulting c) = false) (rst r : Bool) (s : State) :
    (currentWord rst r s).any (fun w => enable (controls s w)) = true ↔
      rst = false ∧ r = true ∧ ∃ i, s.aboutTo i ∧ (outOfRange i s = false ∧
        enable (controlRow (s.acc == 0#s.xlen) (some i.kind)) = true) := by
  simp only [Option.any_eq_true, enable_controls_iff hoff, exists_currentWord_iff]

theorem outputs_dmemWe (rst r : Bool) (s : State) :
    (outputs rst r s).dmemWe = (currentWord rst r s).any (fun w => (controls s w).dmemWe) := by
  unfold outputs
  cases currentWord rst r s <;> rfl

theorem outputs_dmemRe (rst r : Bool) (s : State) :
    (outputs rst r s).dmemRe = (currentWord rst r s).any (fun w => (controls s w).dmemRe) := by
  unfold outputs
  cases currentWord rst r s <;> rfl

/-- `dmem_we` is for a STORE of an existing cell (R154). -/
theorem outputs_dmemWe_iff {rst r : Bool} {s : State} :
    (outputs rst r s).dmemWe = true ↔ rst = false ∧ r = true ∧
      ∃ a, s.aboutTo (.store a) ∧ dataAddress a < s.memSize := by
  rw [outputs_dmemWe, enable_currentWord_iff (enable := Controls.dmemWe) fun _ => rfl]
  refine and_congr_right' (and_congr_right' ⟨?_, ?_⟩)
  · rintro ⟨i, hi, hor, hwe⟩
    cases i with
    | store a => exact ⟨a, hi, Nat.not_le.1 (of_decide_eq_false hor)⟩
    | load _ | add _ | sub _ | jump _ | nop _ | halt _ => cases hwe
  · rintro ⟨a, hi, ha⟩
    exact ⟨_, hi, decide_eq_false (Nat.not_le.2 ha), rfl⟩

/-- `dmem_re` is for a LOAD, ADD or SUB of an existing cell (R154). -/
theorem outputs_dmemRe_iff {rst r : Bool} {s : State} :
    (outputs rst r s).dmemRe = true ↔ rst = false ∧ r = true ∧ ∃ a, dataAddress a < s.memSize ∧
      (s.aboutTo (.load a) ∨ s.aboutTo (.add a) ∨ s.aboutTo (.sub a)) := by
  rw [outputs_dmemRe, enable_currentWord_iff (enable := Controls.dmemRe) fun _ => rfl]
  refine and_congr_right' (and_congr_right' ⟨?_, ?_⟩)
  · rintro ⟨i, hi, hor, hre⟩
    cases i with
    | load a => exact ⟨a, Nat.not_le.1 (of_decide_eq_false hor), .inl hi⟩
    | add a => exact ⟨a, Nat.not_le.1 (of_decide_eq_false hor), .inr (.inl hi)⟩
    | sub a => exact ⟨a, Nat.not_le.1 (of_decide_eq_false hor), .inr (.inr hi)⟩
    | store _ | jump _ | nop _ | halt _ => cases hre
  · rintro ⟨a, ha, hi | hi | hi⟩ <;>
      exact ⟨_, hi, decide_eq_false (Nat.not_le.2 ha), rfl⟩

/-- The operand of a LOAD, STORE, ADD or SUB is on `dmem_addr`, in range or not (R154). -/
theorem outputs_dmemAddr_of_aboutTo {s : State} {i : Instr} (hi : s.aboutTo i)
    (hk : i.kind.opcode.toNat ≤ 3) : (outputs false true s).dmemAddr = i.operand := by
  obtain ⟨w, hw, hd⟩ := currentWord_of_aboutTo hi
  have haddr : addressesMemory w = true := by
    rw [addressesMemory, opcodeOf_of_decodeWord hd]
    exact decide_eq_true hk
  simp [outputs, hw, haddr, (decodeWord_ok hd).2]

/-- The addressed cell is on `dmem_rdata` under its enable (R154). -/
theorem outputs_dmemRdata_of_aboutTo {s : State} {i : Instr} (hi : s.aboutTo i)
    (hre : (outputs false true s).dmemRe = true) :
    (outputs false true s).dmemRdata = s.mem.read i.operand.toNat := by
  obtain ⟨w, hw, hd⟩ := currentWord_of_aboutTo hi
  have hcontrols : (controls s w).dmemRe = true := by rwa [outputs_dmemRe, hw] at hre
  simp [outputs, hw, hcontrols, (decodeWord_ok hd).2]

theorem outputs_doneO_iff {rst r : Bool} {s : State} :
    (outputs rst r s).doneO = true ↔ ¬ s.Runnable :=
  decide_eq_true_iff.trans (not_congr (condition_eq_runnable_iff s))

/-- Settles O51: the enables by the control table, the values of the port by the word that
executes. -/
theorem dataPortEnables : Obligations.DataPortEnables := by
  refine fun s rst r => ⟨outputs_dmemWe_iff, outputs_dmemRe_iff,
    fun a hi => outputs_dmemAddr_of_aboutTo hi (by simp [Instr.kind, Kind.opcode]),
    fun hwe => if_pos hwe, fun a hread => ?_, rfl, outputs_doneO_iff⟩
  have hre (ha : dataAddress a < s.memSize) : (outputs false true s).dmemRe = true :=
    outputs_dmemRe_iff.2 ⟨rfl, rfl, a, ha, hread⟩
  obtain hi | hi | hi := hread <;>
    exact ⟨outputs_dmemAddr_of_aboutTo hi (by simp [Instr.kind, Kind.opcode]),
      fun ha => outputs_dmemRdata_of_aboutTo hi (hre ha)⟩

/-! ## The trace bundle -/

/-- The bundle of a cycle that completes is that of its step event (R162). -/
theorem traceBundle_of_completes {s : State} {i : Instr} (hi : s.aboutTo i)
    (hor : outOfRange i s = false) :
    traceBundle false true s = bundleOf s.cycleCount.toNat s.trace.length
      (.step i.kind i.operand (detailOf i s)) := by
  obtain ⟨w, hw, hd⟩ := currentWord_of_aboutTo hi
  simp only [traceBundle, hw, stepEventOf_of_inRange hd hor]

/-- The bundle of an access to an existing cell. -/
theorem traceBundle_of_access {s : State} {i : Instr} {a : Operand} (hi : s.aboutTo i)
    (hrange : outOfRange i s = decide (s.memSize ≤ dataAddress a))
    (ha : dataAddress a < s.memSize) :
    traceBundle false true s = bundleOf s.cycleCount.toNat s.trace.length
      (.step i.kind i.operand (detailOf i s)) :=
  traceBundle_of_completes hi (hrange.trans (decide_eq_false (Nat.not_le.2 ha)))

theorem exists_stepEvent_of_traceBundle_valid {rst r : Bool} {s : State}
    (h : (traceBundle rst r s).valid = true) :
    ∃ w e, currentWord rst r s = some w ∧ stepEventOf s w = some e := by
  unfold traceBundle at h
  split at h
  · cases h
  · next w hw =>
    split at h
    · cases h
    · next e he => exact ⟨w, e, hw, he⟩

theorem traceBundle_valid_iff_completes {rst r : Bool} {s : State} :
    (traceBundle rst r s).valid = true ↔
      rst = false ∧ r = true ∧ ∃ i, s.aboutTo i ∧ outOfRange i s = false := by
  constructor
  · intro h
    obtain ⟨w, e, hw, he⟩ := exists_stepEvent_of_traceBundle_valid h
    exact exists_currentWord_iff.1 ⟨w, hw, completes_of_stepEventOf he⟩
  · rintro ⟨rfl, rfl, i, hi, hor⟩
    rw [traceBundle_of_completes hi hor]
    rfl

/-- A cycle leaves `fault` 0 exactly where an instruction completes. -/
theorem step_fault_eq_zero_iff {s t : State} (hr : s.Runnable) (h : step s = .next t) :
    t.fault = 0#2 ↔ ∃ i, s.aboutTo i ∧ outOfRange i s = false := by
  constructor
  · intro hf
    obtain ⟨i, hi⟩ := exists_aboutTo_of_step hr h hf
    obtain ⟨-, rfl⟩ | ⟨hor, -⟩ := step_of_aboutTo hi h
    · exact absurd hf (raise_fault_ne_zero _ _)
    · exact ⟨i, hi, hor⟩
  · rintro ⟨i, hi, hor⟩
    obtain ⟨hout, -⟩ | ⟨-, rfl⟩ := step_of_aboutTo hi h
    · cases hor.symm.trans hout
    · exact hr.1

/-- One pulse per completed cycle (R154). -/
theorem traceBundle_valid_iff {rst r : Bool} {s : State} :
    (traceBundle rst r s).valid = true ↔
      rst = false ∧ r = true ∧ s.Runnable ∧ (clock rst r s).fault = 0#2 := by
  rw [traceBundle_valid_iff_completes]
  constructor
  · rintro ⟨rfl, rfl, i, hi, hor⟩
    exact ⟨rfl, rfl, hi.1, (step_fault_eq_zero_iff hi.1 (step_eq_next_clock hi.1)).2 ⟨i, hi, hor⟩⟩
  · rintro ⟨rfl, rfl, hr, hf⟩
    exact ⟨rfl, rfl, (step_fault_eq_zero_iff hr (step_eq_next_clock hr)).1 hf⟩

/-- A step records no other cause than the two of 60_exceptions.md R170. -/
theorem step_fault_ne_zero_iff {s t : State} (h : step s = .next t) :
    t.fault ≠ 0#2 ↔ t.fault = 1#2 ∨ t.fault = 2#2 := by
  constructor
  · intro hf
    obtain h0 | ⟨-, _, -, ⟨h1, -⟩ | ⟨h2, -⟩⟩ := step_faultPrecise h
    · exact absurd h0 hf
    · exact .inl h1
    · exact .inr h2
  · rintro (h1 | h2)
    · rw [h1]
      decide
    · rw [h2]
      decide

/-- Where a runnable machine steps there is no pulse exactly where the step faults. -/
theorem traceBundle_not_valid_iff {s t : State} (hr : s.Runnable) (h : step s = .next t) :
    (traceBundle false true s).valid = false ↔ t.fault = 1#2 ∨ t.fault = 2#2 := by
  obtain rfl : clock false true s = t :=
    Host.Outcome.next.inj ((step_eq_next_clock hr).symm.trans h)
  rw [← step_fault_ne_zero_iff h, ← Bool.not_eq_true, traceBundle_valid_iff]
  simp [hr]

/-- Settles O52: for each kind the bundle of its step event, and the pulse by
`traceBundle_valid_iff`. -/
theorem traceBundleFields : Obligations.TraceBundleFields := by
  refine fun s a => ⟨fun hi ha => ?_, fun hi ha => ?_, fun hi ha => ?_, fun hi ha => ?_,
    fun hi => ?_, fun hi => ?_, fun hi => ?_, fun _ _ => traceBundle_valid_iff,
    fun _ => traceBundle_not_valid_iff⟩
  · rw [traceBundle_of_access hi rfl ha]
    exact ⟨rfl, rfl, rfl, rfl⟩
  · rw [traceBundle_of_access hi rfl ha]
    exact ⟨rfl, rfl, rfl, rfl⟩
  · rw [traceBundle_of_access hi rfl ha]
    exact ⟨rfl, rfl, rfl, rfl, rfl⟩
  · rw [traceBundle_of_access hi rfl ha]
    exact ⟨rfl, rfl, rfl, rfl, rfl⟩
  · rw [traceBundle_of_completes hi rfl]
    exact ⟨rfl, rfl, rfl, decide_eq_decide.2 BitVec.toNat_inj.symm⟩
  · rw [traceBundle_of_completes hi rfl]
    exact ⟨rfl, rfl, rfl⟩
  · rw [traceBundle_of_completes hi rfl]
    exact ⟨rfl, rfl, rfl⟩

end Sys2Proof.Machine

namespace Sys2Proof.Machine

/-! ## Taking a fault -/

/-- A Faulted machine executes no cycle (60_exceptions.md R175). -/
theorem condition_ne_runnable_of_fault {s : State} (hf : s.fault ≠ 0#2) :
    s.condition ≠ .runnable := (condition_eq_faulted_iff s).2 hf ▸ nofun

/-- Settles O20: the word decodes to no instruction, so the cycle raises, and the state it leaves is
Faulted. -/
theorem unknownOpcodeFaults : Obligations.UnknownOpcodeFaults := by
  intro s w hr hw hop
  obtain ⟨_, hd⟩ := exists_decodeWord_error_iff.2 hop
  have hraise : step s = .next (raise .unknownOpcode (countCycle s)) :=
    step_of_decodeWord_error hr hw hd
  refine ⟨hraise, fun t ht => ?_⟩
  obtain rfl : raise .unknownOpcode (countCycle s) = t :=
    Host.Outcome.next.inj (hraise.symm.trans ht)
  have hf := raise_fault_ne_zero .unknownOpcode (countCycle s)
  exact ⟨(condition_eq_faulted_iff _).2 hf,
    fun n => afterCycles_of_stopped n (condition_ne_runnable_of_fault hf)⟩

/-- A `run` of a Faulted machine draws `elapsed_time` and emits no event, under any fuel
(60_exceptions.md R176). -/
theorem run_of_faulted (n : Nat) {s : State} (hf : s.fault ≠ 0#2) :
    run n s = some { s with
      elapsedTime := Config.elapsedTime s.elapsedDraws
      elapsedDraws := s.elapsedDraws + 1 } := by
  rw [run_of_stopped n (condition_ne_runnable_of_fault hf), endRun_of_faulted hf, drawElapsed]

/-- A cycle that leaves `fault` set raised on the word at `pc`, after the count: the word decodes to
no instruction, or to one that accesses a cell that does not exist (60_exceptions.md R171, R172). -/
theorem step_raises {s t : State} (hr : s.Runnable) (h : step s = .next t) (hf : t.fault ≠ 0#2) :
    ∃ w ∈ fetch s,
      (7 ≤ (opcodeOf w).toNat ∧ t = raise .unknownOpcode (countCycle s)) ∨
      ((opcodeOf w).toNat ≤ 3 ∧ s.memSize ≤ (operandOf w).toNat ∧
        t = raise .addressOutOfRange (countCycle s)) := by
  obtain ⟨hstop, -⟩ | ⟨-, w, hw, ⟨_, hd, ht⟩ | ⟨i, hd, he⟩⟩ := step_cases h
  · exact absurd hr hstop
  · exact ⟨w, hw, .inl ⟨decodeWord_error hd, ht⟩⟩
  · obtain ⟨hop, hoperand⟩ := decodeWord_eq_ok_iff.1 hd
    obtain ⟨_, _, _, _, _, rfl, -⟩ | ⟨hk, ha, ht⟩ := exec_cases he
    · exact absurd hr.1 hf
    · exact ⟨w, hw, .inr ⟨hop ▸ hk, hoperand ▸ ha, ht⟩⟩

/-- Settles O21, by `step_raises`: the state a raise leaves is the one stated, and `run_of_faulted`
gives the end of `run`. -/
theorem raiseWritesOnlyFault : Obligations.RaiseWritesOnlyFault := fun _ t hr h hf =>
  ⟨(condition_eq_faulted_iff t).2 hf, fun n => ⟨_, run_of_faulted n hf⟩, step_raises hr h hf⟩

end Sys2Proof.Machine

namespace Sys2Proof.Machine

/-! ## `reset` -/

/-- Settles O42: `reset` writes every piece of state and no parameter, so a second one finds only the
trace to change. -/
theorem resetRestores : Obligations.ResetRestores := fun s =>
  have htwice : s.trace ++ [.resetNotice] ++ [.resetNotice] =
      s.trace ++ [.resetNotice, .resetNotice] := List.append_assoc ..
  ⟨rfl, rfl, rfl, rfl, rfl, rfl, fun _ => rfl, rfl, rfl,
    congrArg (fun events => { hostReset s with trace := events }) htwice⟩

/-! ## What a host compares after a `run`

70_reset_and_hazards.md R205 compares the final state and the events of the `run` itself, `elapsed_time`
excepted. `State.resultFrom n` keeps just that of a state, `n` being the number of events before the
`run`. A step commutes with it, so a `run` does, and it makes the state after `reset` the constructed
one. -/

/-- The events after the first `n`, without their `elapsed_time` (90_conflicts.md C4). -/
def eventsFrom {w : Nat} (n : Nat) (trace : List (TraceEvent w)) : List (TraceEvent w) :=
  (trace.drop n).map TraceEvent.withoutElapsed

/-- The architectural state of `s` with these events. -/
def State.withEvents (s : State) (events : List (TraceEvent s.xlen)) : State :=
  { s.architectural with trace := events }

/-- The architectural state with the events after the first `n`. -/
def State.resultFrom (n : Nat) (s : State) : State := s.withEvents (eventsFrom n s.trace)

theorem eventsFrom_concat {w n : Nat} {trace : List (TraceEvent w)} (hn : n ≤ trace.length)
    (e : TraceEvent w) : eventsFrom n (trace ++ [e]) = eventsFrom n trace ++ [e.withoutElapsed] := by
  simp [eventsFrom, List.drop_append_of_le_length hn]

theorem eventsFrom_length {w : Nat} (trace : List (TraceEvent w)) :
    eventsFrom trace.length trace = [] := by
  simp [eventsFrom]

/-- Masking `elapsed_time` twice is masking it once. -/
theorem eventsFrom_zero_eventsFrom {w : Nat} (n : Nat) (trace : List (TraceEvent w)) :
    eventsFrom 0 (eventsFrom n trace) = eventsFrom n trace := by
  have hidem : TraceEvent.withoutElapsed ∘ TraceEvent.withoutElapsed =
      (TraceEvent.withoutElapsed : TraceEvent w → TraceEvent w) := by
    funext e
    cases e <;> rfl
  simp [eventsFrom, hidem]

/-- What `reset` leaves differs from the constructed state by the notice and the earlier events
(70_reset_and_hazards.md R204). -/
theorem hostReset_resultFrom (s : State) :
    (hostReset s).resultFrom (hostReset s).trace.length = construct s.params :=
  congrArg (hostReset s).withEvents (eventsFrom_length _)

/-- A completed instruction adds its own event to those counted from `n`, and reads none of them. -/
theorem completed_resultFrom {n : Nat} (i : Instr) {s : State} (hn : n ≤ s.trace.length) :
    completed i (s.resultFrom n) = (completed i s).resultFrom n := by
  have hresult : (completed i s).resultFrom n = (completed i s).withEvents
      (eventsFrom n s.trace ++ [.step i.kind i.operand (detailOf i s)]) :=
    congrArg (completed i s).withEvents (eventsFrom_concat hn _)
  rw [hresult]
  cases i <;> rfl

theorem executed_resultFrom {n : Nat} (i : Instr) {s : State} (hn : n ≤ s.trace.length) :
    executed i (s.resultFrom n) = (executed i s).resultFrom n := by
  have hrange : outOfRange i (s.resultFrom n) = outOfRange i s := by cases i <;> rfl
  cases h : outOfRange i s
  · rw [executed_of_inRange h, executed_of_inRange (hrange.trans h), completed_resultFrom i hn]
  · rw [executed_of_outOfRange h, executed_of_outOfRange (hrange.trans h)]
    rfl

theorem step_resultFrom {n : Nat} {s t : State} (hn : n ≤ s.trace.length) (h : step s = .next t) :
    step (s.resultFrom n) = .next (t.resultFrom n) := by
  obtain ⟨hr, hf, rfl⟩ | ⟨hr, w, hw, ⟨e, hd, rfl⟩ | ⟨i, hd, hx⟩⟩ := step_cases h
  · exact step_eq_self_of_not_runnable hf hr
  · exact step_of_decodeWord_error (s := s.resultFrom n) hr hw hd
  · obtain rfl : executed i (countCycle s) = t := Host.Outcome.next.inj ((exec_eq ..).symm.trans hx)
    have hi : (s.resultFrom n).aboutTo i := State.aboutTo_of_word hr hw hd
    rw [step_eq_exec_of_aboutTo hi, exec_eq]
    exact congrArg Host.Outcome.next (executed_resultFrom i (s := countCycle s) hn)

/-- Without a fault the end of a `run` adds the summary (45_interfaces_and_trace.md R159). -/
theorem endRun_resultFrom_of_safe {n : Nat} {s : State} (hn : n ≤ s.trace.length)
    (hf : s.fault = 0#2) : (endRun s).resultFrom n = s.withEvents
      (eventsFrom n s.trace ++ [.summary s.cycleCount 0 s.acc s.pc (s.mem.dump s.memSize)]) := by
  rw [endRun_of_safe hf]
  exact congrArg s.withEvents (eventsFrom_concat hn _)

theorem endRun_resultFrom {n : Nat} {s : State} (hn : n ≤ s.trace.length) :
    (endRun (s.resultFrom n)).resultFrom 0 = (endRun s).resultFrom n := by
  have hmasked : eventsFrom 0 (s.resultFrom n).trace = eventsFrom n s.trace :=
    eventsFrom_zero_eventsFrom n s.trace
  by_cases hf : s.fault = 0#2
  · rw [endRun_resultFrom_of_safe hn hf,
      endRun_resultFrom_of_safe (s := s.resultFrom n) (Nat.zero_le _) hf, hmasked]
    rfl
  · rw [endRun_of_faulted hf, endRun_of_faulted (s := s.resultFrom n) hf]
    exact congrArg s.withEvents hmasked

/-- Where the machine is not runnable, both runs end at once. -/
theorem run_resultFrom_of_stopped {n : Nat} (fuel : Nat) {s : State} (hn : n ≤ s.trace.length)
    (hc : s.condition ≠ .runnable) :
    (run fuel s).map (State.resultFrom n) =
      (run fuel (s.resultFrom n)).map (State.resultFrom 0) := by
  rw [run_of_stopped fuel hc, run_of_stopped fuel (s := s.resultFrom n) hc]
  exact congrArg some (endRun_resultFrom hn).symm

theorem step_trace_length_le {s t : State} (h : step s = .next t) :
    s.trace.length ≤ t.trace.length :=
  (step_onlyStepEventsFrom (onlyStepEventsFrom_length s) h).1

/-- A `run` from a state and one from what `State.resultFrom` keeps of it end under the same fuel and
with the same result. -/
theorem run_resultFrom {n : Nat} (fuel : Nat) {s : State} (hn : n ≤ s.trace.length) :
    (run fuel s).map (State.resultFrom n) =
      (run fuel (s.resultFrom n)).map (State.resultFrom 0) := by
  induction fuel generalizing s with
  | zero =>
    by_cases hc : s.condition = .runnable
    · rw [run_zero_of_runnable hc, run_zero_of_runnable (s := s.resultFrom n) hc]
      rfl
    · exact run_resultFrom_of_stopped 0 hn hc
  | succ fuel ih =>
    by_cases hc : s.condition = .runnable
    · obtain ⟨t, ht⟩ := cycle_next s
      have hstep : step s = .next t := (step_of_runnable hc).trans ht
      have ht' : cycle (s.resultFrom n) = .next (t.resultFrom n) :=
        (step_of_runnable (s := s.resultFrom n) hc).symm.trans (step_resultFrom hn hstep)
      rw [run_of_runnable fuel hc ht, run_of_runnable fuel (s := s.resultFrom n) hc ht']
      exact ih (hn.trans (step_trace_length_le hstep))
    · exact run_resultFrom_of_stopped (fuel + 1) hn hc

/-- Settles O43, by `run_resultFrom` from the state after `reset`, of which `State.resultFrom` keeps the
constructed state. -/
theorem resetRunReproducesFreshRun : Obligations.ResetRunReproducesFreshRun := by
  intro n s
  have hsame := run_resultFrom n (le_refl (hostReset s).trace.length)
  rw [hostReset_resultFrom] at hsame
  refine ⟨?_, fun u v hu hv => ?_⟩
  · rw [← Option.map_eq_none_iff, hsame, Option.map_eq_none_iff]
  · rw [hu, hv] at hsame
    exact Option.some.inj hsame

end Sys2Proof.Machine
